-- ==== Sys2Proof/Word.lean ====
section
/-! DEFINITION. The word types of the block: 16-bit register values, bytes, and the 10-bit datapath control word (00_scope.md R6, 30_encoding.md R47). -/

namespace Sys2Proof

/-- A value of the register `CRC` and of the checksum, 16 bits (R6 `CRC_W`). -/
abbrev Word := BitVec 16

/-- One input element, 8 bits (R6 `BYTE_W`). -/
abbrev Byte := BitVec 8

/-- A datapath control word `w[9:0]`, format `DP` (R47). -/
abbrev CtrlWord := BitVec 10

end Sys2Proof
end

