-- ==== Sys2Proof/Config.lean ====
section
/-! DEFINITION. What is fixed for the machine: the algorithm parameters (00_scope.md R5, R6), the address width State.reset carries (R7), and the one free value (70_reset_and_hazards.md R111). -/

namespace Sys2Proof

/-- `POLY`, the polynomial in normal form (R5). -/
def Config.poly : Word := 0x8005

/-- `POLY_R`, the reflected form, the constant the datapath uses (R5). -/
def Config.polyR : Word := 0xA001

/-- `INIT`, the value every operation starts from (R5). -/
def Config.init : Word := 0x0000

/-- `XOROUT`, the final XOR, none (R5). -/
def Config.xorOut : Word := 0x0000

/-- `BITS_PER_BYTE`, shift steps a byte (R6). -/
def Config.bitsPerByte : Nat := 8

/-- `AW` of State.reset. The spec leaves `AW` open (R7); the model carries it in State and is
general in it; 16 is a DESIGN CHOICE (log entry 5, unsafe for a statement that uses the number). -/
def Config.resetAw : Nat := 16

/-- The free value a RESET step leaves in `PTR` ("PTR <- unspecified", R111; "any value", U10):
nothing constrains it (DESIGN CHOICE, log entry 3, safe). It is applied to State's plain counter
`draws`, and its low `AW` bits are what `PTR` holds. -/
opaque Config.resetPtr : Nat → Nat

end Sys2Proof
end

