-- ==== Sys2Proof/Syntax.lean ====
section
/-! DEFINITION. The five operations of the opcode table (30_encoding.md R46, R50), the two formats, and the raw words the decoder reads. -/

namespace Sys2Proof

/-- The two formats (R46): the datapath control word and the start descriptor. -/
inductive Format where
  | dp
  | desc
deriving DecidableEq, Repr

/-- The width of a format's word: 10 (R47) and `AW + 16` (R48). -/
def Format.width (aw : Nat) : Format → Nat
  | .dp => 10
  | .desc => aw + 16

/-- The operations, one constructor for each row of the opcode table (R50). -/
inductive Instr where
  /-- `HOLD` (R59). -/
  | hold
  /-- `CLR` (R60). -/
  | clr
  /-- `XORB b` (R61). -/
  | xorb (b : Byte)
  /-- `SHR` (R62). -/
  | shr
  /-- `START data, length` (R69): a byte address and a count of bytes. -/
  | start (data : Nat) (length : BitVec 16)
deriving DecidableEq, Repr

/-- The format an operation is written in (R50). -/
def Instr.format : Instr → Format
  | .hold => .dp
  | .clr => .dp
  | .xorb _ => .dp
  | .shr => .dp
  | .start _ _ => .desc

/-- The selector of the datapath function `dp` (40_datapath.md R58). -/
inductive DpOp where
  | hold
  | clr
  | xorb
  | shr
deriving DecidableEq, Repr

/-- A word as it comes to the decoder: which format's port it arrives on (the formats share no
opcode bits, R48), how many bits it has, and the bits as a number. -/
structure RawWord where
  fmt : Format
  width : Nat
  bits : Nat
deriving DecidableEq, Repr

end Sys2Proof
end

