-- ==== Sys2Proof/WellFormed.lean ====
section
/-! DEFINITION. When an operation can be written in its format: the only operand the types leave open is the address of START, `AW` bits (30_encoding.md R48, R49, R53). -/

namespace Sys2Proof

/-- An operation is well formed for the address width `aw` when its address fits in `aw` bits
(R48: `data` is the `AW` bits `d[AW+15:16]`); every other operand value is legal (R52, R53). -/
def Instr.wf (aw : Nat) : Instr → Bool
  | .hold => true
  | .clr => true
  | .xorb _ => true
  | .shr => true
  | .start data _ => decide (data < 2 ^ aw)

end Sys2Proof
end

