-- ==== Sys2Proof/Decode.lean ====
section
/-! DEFINITION. The decoder of the two formats (30_encoding.md R47 to R53), total on every raw word and rejecting by name, and the encoder written from the same tables. -/

namespace Sys2Proof

/-- Why the decoder refuses a raw word. Both formats have one fixed length (R46). -/
inductive DecodeError where
  /-- The word has another width than its format (R46). -/
  | wrongWidth (got : Nat)
  /-- The number given has bits above its own width. -/
  | bitsAboveWidth
deriving DecidableEq, Repr

/-- `w[9:8]`, the field `op` of a control word (R47). -/
def opField (w : CtrlWord) : BitVec 2 := w.extractLsb' 8 2

/-- `w[7:0]`, the field `b` of a control word (R47). -/
def byteField (w : CtrlWord) : Byte := w.extractLsb' 0 8

/-- The concatenation of `op` in the high bits and `b` (R47). -/
def ctrlWord (op : BitVec 2) (b : Byte) : CtrlWord := op ++ b

/-- Decode a control word (R50). Total: all four values of `op` are assigned, and `b` is ignored
outside `XORB` (R52, U7). -/
def decodeDp (w : CtrlWord) : Instr :=
  if opField w = 0b00#2 then .hold
  else if opField w = 0b01#2 then .clr
  else if opField w = 0b10#2 then .xorb (byteField w)
  else .shr

/-- `d[AW+15:16]`, the field `data` of a descriptor (R48). -/
def dataField {aw : Nat} (d : BitVec (aw + 16)) : Nat := d.toNat / 2 ^ 16

/-- `d[15:0]`, the field `length` of a descriptor (R48). -/
def lengthField {aw : Nat} (d : BitVec (aw + 16)) : BitVec 16 := d.setWidth 16

/-- Decode a start descriptor (R48). Total: every value is legal (R53). -/
def decodeDesc {aw : Nat} (d : BitVec (aw + 16)) : Instr := .start (dataField d) (lengthField d)

/-- Decode a raw word for the address width `aw`. -/
def decode (aw : Nat) (w : RawWord) : Except DecodeError Instr :=
  if w.width ≠ w.fmt.width aw then .error (.wrongWidth w.width)
  else if 2 ^ w.width ≤ w.bits then .error .bitsAboveWidth
  else match w.fmt with
    | .dp => .ok (decodeDp (BitVec.ofNat 10 w.bits))
    | .desc => .ok (decodeDesc (aw := aw) (BitVec.ofNat (aw + 16) w.bits))

/-- The canonical control word of a datapath operation: an ignored `b` is 0x00 (R50, R52);
`START` has none (R46). -/
def encodeDp : Instr → Option CtrlWord
  | .hold => some (ctrlWord 0b00#2 0x00#8)
  | .clr => some (ctrlWord 0b01#2 0x00#8)
  | .xorb b => some (ctrlWord 0b10#2 b)
  | .shr => some (ctrlWord 0b11#2 0x00#8)
  | .start _ _ => none

/-- The descriptor of `START data, length` as a number: `data` in the high bits (R48). -/
def descBits (data : Nat) (length : BitVec 16) : Nat := data * 2 ^ 16 + length.toNat

/-- The word of an operation, in its format, for the address width `aw`. -/
def encode (aw : Nat) (i : Instr) : RawWord where
  fmt := i.format
  width := i.format.width aw
  bits := match i with
    | .hold => (ctrlWord 0b00#2 0x00#8).toNat
    | .clr => (ctrlWord 0b01#2 0x00#8).toNat
    | .xorb b => (ctrlWord 0b10#2 b).toNat
    | .shr => (ctrlWord 0b11#2 0x00#8).toNat
    | .start data length => descBits data length

/-- A canonical control word: its `b` field is 0x00 unless it is an `XORB` (R52). -/
def canonical (w : CtrlWord) : Bool := decide (opField w = 0b10#2) || decide (byteField w = 0x00#8)

/-- The operation of a table row's word, given as a number `w` of `nbits` bits in whole bytes.
The two formats arrive on different ports and share no opcode bits (R46, R48), so the number alone
does not say which one it is: a number of at most 16 bits with no bit above bit 9 is read as a
control word in two bytes, any other as a descriptor (DESIGN CHOICE, log entry 8). A descriptor
shorter than `AW + 16` bits has zeros above it; one longer than State.reset's is read at the width
it has. -/
def decodeTableWord (nbits w : Nat) : Option Instr :=
  if nbits ≤ 16 ∧ w < 2 ^ 10 then (decode Config.resetAw ⟨.dp, 10, w⟩).toOption
  else if w < 2 ^ nbits then
    (decode (max Config.resetAw (nbits - 16)) ⟨.desc, max Config.resetAw (nbits - 16) + 16, w⟩).toOption
  else none

end Sys2Proof
end

