-- ==== Sys2Proof/Machine/State.lean ====
section
/-! DEFINITION. The state of one instance of the block (10_state.md), the arguments of its step relation that the host interface makes part of it (MEM, AW, the host's inputs), the fault and refusal types, and the state after reset. -/

namespace Sys2Proof.Machine

/-- The ways a run goes wrong: exactly one (60_exceptions.md R110). -/
inductive Fault where
  /-- A FETCH step needs `MEM` at an address where it is undefined: the step does not exist and the
  block is stuck (R31, R97, U1, U2). Raised by the sequencer's step alone. Safe: the model stops
  where a real block might read garbage (log entry 4). -/
  | stuckAtUndefinedAddress (addr : Nat)
deriving DecidableEq, Repr

/-- An operation without a meaning. -/
inductive Refusal where
  /-- The arm of `exec` for an operation that has no meaning yet. No arm raises it in this model.
  Safe. -/
  | notModelled (mnemonic : String)
deriving DecidableEq, Repr

/-- The launch memory `MEM`, a partial map from addresses to bytes (R31): the bytes that are
defined, in the canonical form `Memory.wf`. An unlisted address is undefined. -/
abbrev Memory := List Host.Cell

/-- The canonical form: addresses strictly rising. An unlisted address reads as no value, so no
entry can equal what an unlisted one reads as. -/
abbrev Memory.wf (m : Memory) : Prop := m.Pairwise fun p q => p.1 < q.1

/-- What the host drives in one step (R24), and the bytes it has written into `MEM` since the step
before (R41, R42). `data` is a port of `AW` bits: the block sees its low `AW` bits. -/
structure HostInput where
  rst : Bool
  start : Bool
  data : Nat
  length : BitVec 16
  writes : List Host.Cell
deriving DecidableEq, Repr

/-- All inputs 0 and no write. -/
def HostInput.quiet : HostInput := ⟨false, false, 0, 0, []⟩

/-- The state (10_state.md). The last four fields are not the block's: `aw`, `mem` and `inputs` are
the arguments of the spec's step relation (R7, R31, R67; log entry 1), and `draws` is the model's
counter of free values (log entry 3). -/
structure State where
  /-- `CRC`, the 16-bit register (R13). -/
  crc : Word
  /-- `BUSY` (R17). -/
  busy : Bool
  /-- `DONE` (R18). -/
  done : Bool
  /-- `PTR`, the `AW`-bit address of the next byte to read (R20). -/
  ptr : Nat
  /-- `CNT`, the number of bytes not yet read (R21). -/
  cnt : BitVec 16
  /-- `BIT`, the shift steps still owed, 0 to 8 (R22, R23, U6). -/
  bit : Fin 9
  /-- `AW`, the width of an address (R7), a constant of the machine that no step changes. -/
  aw : Nat
  /-- `MEM` (R31). -/
  mem : Memory
  /-- The host's inputs of the coming steps, the next one first; when the list is empty every input
  is 0 (log entry 6). -/
  inputs : List HostInput
  /-- How many free values have been drawn (log entry 3). -/
  draws : Nat
deriving DecidableEq, Repr

/-- The machine right after a reset step (R29, R111). `PTR` is unspecified there and holds 0
(DESIGN CHOICE, log entry 2); no byte of `MEM` is defined (log entry 4); `AW` is
`Config.resetAw` (log entry 5). -/
def State.reset : State where
  crc := 0x0000
  busy := false
  done := false
  ptr := 0
  cnt := 0x0000
  bit := 0
  aw := Config.resetAw
  mem := []
  inputs := []
  draws := 0

end Sys2Proof.Machine
end

