-- ==== Sys2Proof/Machine/Ops.lean ====
section
/-! DEFINITION. The named operations over the register CRC, the launch memory and the host's inputs. The block has no exception to take and none to return from (60_exceptions.md R96, R101, R102), so no such operation stands here. -/

namespace Sys2Proof.Machine

/-- Go on with `f` from a next state; a fault or a refusal stays. -/
def andThen (o : Host.Outcome State Fault Refusal) (f : State → Host.Outcome State Fault Refusal) :
    Host.Outcome State Fault Refusal :=
  match o with
  | .next s => f s
  | .fault r => .fault r
  | .refused r => .refused r

/-- The next state, when there is one. -/
def nextState? (o : Host.Outcome State Fault Refusal) : Option State :=
  match o with
  | .next s => some s
  | .fault _ => none
  | .refused _ => none

/-- `MEM(a)`: the byte at `a`, or nothing where `MEM` is undefined (R31). -/
def Memory.read : Memory → Nat → Option Byte
  | [], _ => none
  | (k, v) :: m, a => if k = a then some v else Memory.read m a

/-- `MEM` with the byte `v` at `a`, in canonical form. Only the host writes (R34). A write at an
address where `MEM` was undefined makes it defined there (DESIGN CHOICE, log entry 18: the spec is
silent on such a write). -/
def Memory.write : Memory → Nat → Byte → Memory
  | [], a, v => [(a, v)]
  | (k, w) :: m, a, v =>
    if a < k then (a, v) :: (k, w) :: m
    else if a = k then (a, v) :: m
    else (k, w) :: Memory.write m a v

/-- The host's writes, the first first, each at the low `aw` bits of its address (an address is
`AW` bits, R27; log entry 7). -/
def Memory.writeAll (aw : Nat) : Memory → List Host.Cell → Memory
  | m, [] => m
  | m, (a, v) :: ws => Memory.writeAll aw (Memory.write m (a % 2 ^ aw) v) ws

/-- `CRC <- c`. -/
def State.writeCrc (s : State) (c : Word) : State := { s with crc := c }

/-- What the host drives in the coming step (R24); all inputs 0 when its list is empty
(log entry 6). -/
def State.input (s : State) : HostInput := s.inputs.headD HostInput.quiet

/-- The coming step's inputs are taken: the host's writes stand in `MEM`, visible to this step's
read (R41, R42; DESIGN CHOICE, log entry 7), an undefined address they name becoming defined
(DESIGN CHOICE, log entry 18), and the next entry of the list is the next step's. -/
def State.arrive (s : State) : State :=
  { s with mem := s.mem.writeAll s.aw s.input.writes, inputs := s.inputs.tail }

/-- The same state with other inputs to come. -/
def State.withInputs (s : State) (is : List HostInput) : State := { s with inputs := is }

end Sys2Proof.Machine
end

