-- ==== Sys2Proof/Machine/Operands.lean ====
section
/-! DEFINITION. The operand forms: the zero-extended byte, the address port, the effective address of a FETCH and its increment, the start descriptor on the input ports, and the counters' decrements. -/

namespace Sys2Proof.Machine

/-- `zext_16(b)`: eight zero high bits (00_scope.md R8). -/
def zext16 (b : Byte) : Word := b.setWidth 16

/-- A number on a port of `aw` bits: its low `aw` bits (DEDUCED, log entry 10). -/
def portAddress (aw n : Nat) : Nat := n % 2 ^ aw

/-- The effective address of a FETCH step: `PTR`, no offset, no index, no scaling
(41_sequencer.md R72). -/
def State.fetchAddress (s : State) : Nat := s.ptr

/-- `PTR + 1 mod 2^AW` (R72). -/
def nextAddress (aw p : Nat) : Nat := (p + 1) % 2 ^ aw

/-- `CNT - 1`, taken only on a non-zero `CNT` (R65, R72). -/
def decCnt (c : BitVec 16) : BitVec 16 := c - 1

/-- `BIT - 1`, taken only on a non-zero `BIT` (R65, R71). -/
def decBit (b : Fin 9) : Fin 9 := ⟨b.val - 1, by omega⟩

/-- The start descriptor the host's two input ports make (30_encoding.md R48). -/
def HostInput.descriptor (aw : Nat) (i : HostInput) : BitVec (aw + 16) :=
  BitVec.ofNat (aw + 16) (portAddress aw i.data * 2 ^ 16 + i.length.toNat)

end Sys2Proof.Machine
end

