-- ==== Sys2Proof/Machine/Flags.lean ====
section
/-! DEFINITION. The two status flags BUSY and DONE (10_state.md R17, R18). There is no other flag and no datapath operation writes one (R19, 40_datapath.md R66). -/

namespace Sys2Proof.Machine

/-- An operation is accepted: `BUSY <- 1`, `DONE <- 0` (R69). -/
def State.flagsAccepted (s : State) : State := { s with busy := true, done := false }

/-- An operation is finished: `BUSY <- 0`, `DONE <- 1` (R73). -/
def State.flagsFinished (s : State) : State := { s with busy := false, done := true }

/-- Reset: `BUSY <- 0`, `DONE <- 0` (R111). -/
def State.flagsReset (s : State) : State := { s with busy := false, done := false }

end Sys2Proof.Machine
end

