-- ==== Sys2Proof/Machine/Datapath.lean ====
section
/-! DEFINITION. The datapath function and the meanings of HOLD, CLR, XORB, SHR (40_datapath.md R58 to R62). -/

namespace Sys2Proof.Machine

/-- `shr1`: the logical right shift by one, with `POLY_R` XORed into the shifted value when the bit
shifted out was 1 (R62, R76). -/
def shr1 (c : Word) : Word :=
  if c.getLsbD 0 then (c >>> 1) ^^^ Config.polyR else c >>> 1

/-- The datapath as a total function of the operation, a byte and the register (R58). -/
def dp (op : DpOp) (b : Byte) (c : Word) : Word :=
  match op with
  | .hold => c
  | .clr => 0x0000
  | .xorb => c ^^^ zext16 b
  | .shr => shr1 c

/-- Apply a datapath operation to `CRC`: nothing else is written, nothing raised (R58, R66). -/
def applyDp (op : DpOp) (b : Byte) (s : State) : Host.Outcome State Fault Refusal :=
  .next (s.writeCrc (dp op b s.crc))

/-- `HOLD` (R59). -/
def execHold (s : State) : Host.Outcome State Fault Refusal := applyDp .hold 0x00 s

/-- `CLR` (R60). -/
def execClr (s : State) : Host.Outcome State Fault Refusal := applyDp .clr 0x00 s

/-- `XORB b` (R61). -/
def execXorb (b : Byte) (s : State) : Host.Outcome State Fault Refusal := applyDp .xorb b s

/-- `SHR` (R62). -/
def execShr (s : State) : Host.Outcome State Fault Refusal := applyDp .shr 0x00 s

end Sys2Proof.Machine
end

