-- ==== Sys2Proof/Machine/Start.lean ====
section
/-! DEFINITION. The meaning of START: the writes of the ACCEPT step (41_sequencer.md R69), and no effect while BUSY (R74). -/

namespace Sys2Proof.Machine

/-- The writes of an accepted `START data, length` (R69): `CRC` by the datapath's `CLR`, the
sequencer's registers from the operands, `BUSY` and `DONE`. -/
def State.accept (s : State) (data : Nat) (length : BitVec 16) : State :=
  { (s.writeCrc (dp .clr 0x00 s.crc)).flagsAccepted with
    ptr := portAddress s.aw data, cnt := length, bit := 0 }

/-- `START data, length`. It is accepted when `BUSY = 0` (R69); when `BUSY = 1` it has no effect
whatever and is not remembered (R74; DEDUCED for the operation by itself, log entry 12). Nothing is checked and memory is not accessed (R69). -/
def execStart (data : Nat) (length : BitVec 16) (s : State) : Host.Outcome State Fault Refusal :=
  if s.busy then .next s else .next (s.accept data length)

end Sys2Proof.Machine
end

