-- ==== Sys2Proof/Machine/Dispatch.lean ====
section
/-! DEFINITION. The dispatch: one arm for each operation of the opcode table. -/

namespace Sys2Proof.Machine

def exec (i : Instr) (s : State) : Host.Outcome State Fault Refusal :=
  match i with
  | .hold => Sys2Proof.Machine.execHold s
  | .clr => Sys2Proof.Machine.execClr s
  | .xorb b => Sys2Proof.Machine.execXorb b s
  | .shr => Sys2Proof.Machine.execShr s
  | .start data length => Sys2Proof.Machine.execStart data length s

end Sys2Proof.Machine
end

