-- ==== Sys2Proof/Machine/Reset.lean ====
section
/-! DEFINITION. The writes of a RESET step (70_reset_and_hazards.md R111). -/

namespace Sys2Proof.Machine

/-- The writes of a RESET step (R111). `PTR <- unspecified` is a free value (U10; log entry 3);
`MEM`, `AW` and the coming inputs are not the block's. -/
def State.resetBlock (s : State) : State :=
  { s.flagsReset with
    crc := 0x0000, cnt := 0x0000, bit := 0,
    ptr := portAddress s.aw (Config.resetPtr s.draws), draws := s.draws + 1 }

end Sys2Proof.Machine
end

