-- ==== Sys2Proof/Machine/Sequencer.lean ====
section
/-! DEFINITION. The sequencer: the kind of a step, the control word it issues, what it does to its own registers, and one whole step (41_sequencer.md R67 to R74, 30_encoding.md R51); and the placing of an operation so that the next step runs it. -/

namespace Sys2Proof.Machine

/-- The kinds of step (R68). -/
inductive StepKind where
  | reset
  | accept
  | idle
  | shift
  | fetch
  | finish
deriving DecidableEq, Repr

/-- The kind of the coming step: the first row of the table whose condition holds (R68). -/
def State.kind (s : State) : StepKind :=
  if s.input.rst then .reset
  else if s.busy = false ∧ s.input.start then .accept
  else if s.busy = false then .idle
  else if s.bit ≠ 0 then .shift
  else if s.cnt ≠ 0 then .fetch
  else .finish

/-- `MemRead(PTR, 1)` of the coming step, which sees the host's writes of this step, at an address
undefined before them too (R31, R41; DESIGN CHOICE, log entries 7 and 18). -/
def State.fetchByte (s : State) : Option Byte := s.arrive.mem.read s.fetchAddress

/-- The control word the sequencer issues in the coming step (R51). A RESET step issues none, and a
FETCH step at an undefined address does not exist (R31). -/
def State.issuedWord (s : State) : Option CtrlWord :=
  match s.kind with
  | .reset => none
  | .accept => some (ctrlWord 0b01#2 0x00#8)
  | .idle => some (ctrlWord 0b00#2 0x00#8)
  | .shift => some (ctrlWord 0b11#2 0x00#8)
  | .fetch => s.fetchByte.map (ctrlWord 0b10#2)
  | .finish => some (ctrlWord 0b00#2 0x00#8)

/-- What a step of each kind does beside its datapath operation: the ACCEPT step runs the `START`
on the input ports (R69) after its `CLR` (DEDUCED, log entry 11), the others write the sequencer's registers and flags (R70 to R73). `i` is
the step's input. -/
def advance (k : StepKind) (i : HostInput) (s : State) : Host.Outcome State Fault Refusal :=
  match k with
  | .reset => .next s
  | .accept => exec (decodeDesc (i.descriptor s.aw)) s
  | .idle => .next s
  | .shift => .next { s with bit := decBit s.bit }
  | .fetch => .next { s with ptr := nextAddress s.aw s.ptr, cnt := decCnt s.cnt, bit := 8 }
  | .finish => .next s.flagsFinished

/-- One step (R67, R68): the host's inputs of the step are taken; a RESET step writes the reset
values; any other step runs the operation its control word decodes to and then what the sequencer
does beside it; a FETCH at an undefined address has no step. -/
def State.sequence (s : State) : Host.Outcome State Fault Refusal :=
  match s.kind with
  | .reset => .next s.arrive.resetBlock
  | k =>
    match s.issuedWord with
    | none => .fault (.stuckAtUndefinedAddress s.fetchAddress)
    | some w => andThen (exec (decodeDp w) s.arrive) (advance k s.input)

/-- The inputs to come with a quiet step first; an empty list already is one. -/
def quietFirst : List HostInput → List HostInput
  | [] => []
  | is => HostInput.quiet :: is

/-- The state in which no operation is in its window, the rest as it was. -/
def State.idled (s : State) : State := { s with busy := false, cnt := 0, bit := 0 }

/-- Arrange that the very next step runs `i` (log entry 9). The block fetches no operation (R16):
its sequencer issues them, so the state and the input are set in which it issues this one. -/
def State.place (s : State) (i : Instr) : State :=
  match i with
  | .hold => s.idled.withInputs (quietFirst s.inputs)
  | .clr => s.idled.withInputs ({ HostInput.quiet with start := true } :: s.inputs)
  | .xorb b =>
    { s with busy := true, done := false, bit := 0, cnt := if s.cnt = 0 then 1 else s.cnt,
             mem := s.mem.write s.fetchAddress b, inputs := quietFirst s.inputs }
  | .shr =>
    { s with busy := true, done := false, bit := if s.bit = 0 then 8 else s.bit,
             inputs := quietFirst s.inputs }
  | .start data length =>
    s.idled.withInputs ({ HostInput.quiet with start := true, data := data, length := length } :: s.inputs)

end Sys2Proof.Machine
end

