-- ==== Sys2Proof/Machine/Step.lean ====
section
/-! DEFINITION. One step of the machine, and the placing of a table row's word for it. -/

namespace Sys2Proof.Machine

/-- One step: one rising edge of `clk` (70_reset_and_hazards.md R124). -/
def step (s : State) : Host.Outcome State Fault Refusal := s.sequence

/-- `s` with the operation of the table word `w` placed so that the next step runs it
(log entry 9); `s` where the decoder refuses the word. -/
def State.withFetchWord (s : State) (nbits w : Nat) : State :=
  match decodeTableWord nbits w with
  | none => s
  | some i => s.place i

end Sys2Proof.Machine
end

