-- ==== Sys2Proof/Machine/Runs.lean ====
section
/-! DEFINITION. Runs of several steps, what they issue and read, and the buffer of an operation (20_memory.md R30, R33; 30_encoding.md R55). -/

namespace Sys2Proof.Machine

/-- `n` steps, stopping at the first that does not exist. -/
def stepN : Nat → State → Host.Outcome State Fault Refusal
  | 0, s => .next s
  | n + 1, s => andThen (step s) (stepN n)

/-- What can be seen of one step: its kind, the control word issued, and the address read. -/
structure StepRecord where
  kind : StepKind
  word : Option CtrlWord
  readAddr : Option Nat
deriving DecidableEq, Repr

/-- The record of the coming step. -/
def State.record (s : State) : StepRecord where
  kind := s.kind
  word := s.issuedWord
  readAddr := if s.kind = .fetch then some s.fetchAddress else none

/-- The records of the next `n` steps, as far as they exist. -/
def trace : Nat → State → List StepRecord
  | 0, _ => []
  | n + 1, s =>
    match step s with
    | .next t => s.record :: trace n t
    | .fault _ => []
    | .refused _ => []

/-- The kinds of the next `n` steps, as far as they exist. -/
def stepKinds (n : Nat) (s : State) : List StepKind := (trace n s).map StepRecord.kind

/-- Over the steps of a run, every accepted operation has reached its FINISH (R126; that `START` here
is the accepted one is 92_eei_decisions.md D25's word, DEDUCED, log entry 20). `pending` says that one
is in its window. An operation that a reset ended never reaches its FINISH (R113). -/
def everyStartFinished (pending : Bool) : List StepKind → Bool
  | [] => !pending
  | .accept :: ks => everyStartFinished true ks
  | .finish :: ks => everyStartFinished false ks
  | .reset :: ks => !pending && everyStartFinished false ks
  | .idle :: ks => everyStartFinished pending ks
  | .fetch :: ks => everyStartFinished pending ks
  | .shift :: ks => everyStartFinished pending ks

/-- The steps of a run since its last reset step. -/
def sinceReset (ks : List StepKind) : List StepKind := (ks.reverse.takeWhile (· ≠ .reset)).reverse

/-- The buffer of `length` bytes at `data` (R30): byte `i` stands at `data + i mod 2^AW`; nothing
where `MEM` is undefined at one of the addresses. -/
def Memory.buffer (m : Memory) (aw data : Nat) : Nat → Option (List Byte)
  | 0 => some []
  | n + 1 =>
    match m.read (data % 2 ^ aw), Memory.buffer m aw (data + 1) n with
    | some b, some S => some (b :: S)
    | _, _ => none

/-- `BYTE b` as control words (R55, R83). -/
def byteWords (b : Byte) : List CtrlWord :=
  ctrlWord 0b10#2 b :: List.replicate Config.bitsPerByte (ctrlWord 0b11#2 0x00#8)

/-- `CALC` over the bytes `S` as control words (R55, R78): the ACCEPT step's `CLR`, the nine words
of each byte, one `HOLD`. -/
def calcWords (S : List Byte) : List CtrlWord :=
  ctrlWord 0b01#2 0x00#8 :: (S.flatMap byteWords ++ [ctrlWord 0b00#2 0x00#8])

/-- The records of the FETCH of the byte at `data` and its eight SHIFTs. -/
def byteRecords (aw data : Nat) (b : Byte) : List StepRecord :=
  ⟨.fetch, some (ctrlWord 0b10#2 b), some (data % 2 ^ aw)⟩ ::
    List.replicate Config.bitsPerByte ⟨.shift, some (ctrlWord 0b11#2 0x00#8), none⟩

/-- The records of the FETCH and SHIFT steps over the bytes `S` at `data` on (R78, R125). -/
def bytesRecords (aw : Nat) : Nat → List Byte → List StepRecord
  | _, [] => []
  | data, b :: S => byteRecords aw data b ++ bytesRecords aw (data + 1) S

/-- The records of a whole operation over the bytes `S` at `data` (R78, R125). -/
def operationRecords (aw data : Nat) (S : List Byte) : List StepRecord :=
  ⟨.accept, some (ctrlWord 0b01#2 0x00#8), none⟩ ::
    (bytesRecords aw data S ++ [⟨.finish, some (ctrlWord 0b00#2 0x00#8), none⟩])

/-- The addresses a list of records reads, in order (R33). -/
def readAddresses (rs : List StepRecord) : List Nat := rs.filterMap StepRecord.readAddr

/-- The control words a list of records issues, in order. -/
def issuedWords (rs : List StepRecord) : List CtrlWord := rs.filterMap StepRecord.word

end Sys2Proof.Machine
end

