-- ==== Sys2Proof/Machine/Instances.lean ====
section
/-! DEFINITION. Several instances of the block (60_exceptions.md R108): a product of states with one common MEM. -/

namespace Sys2Proof.Machine

/-- One edge of `clk` for one instance: its step, or, where it has no step (stuck, R97), its six
registers as they are (DESIGN CHOICE, log entry 14) while the host's inputs of that edge go by: the
entry is taken and its writes stand in `MEM` (DESIGN CHOICE, log entry 19: the spec is silent on
whether inputs go by there). So an `rst` later in its own list comes, and is a step. It stays as long
as its address is undefined and no reset comes (log entry 18). -/
def stepOrStay (s : State) : State := (nextState? (step s)).getD s.arrive

/-- `n` edges for one instance, its registers staying where it is stuck. -/
def runOrStay : Nat → State → State
  | 0, s => s
  | n + 1, s => runOrStay n (stepOrStay s)

/-- Instance `k` takes a step; the memory is common, so what the host wrote in that step stands in
every instance's (R108; DESIGN CHOICE, log entry 14). A byte so defined can give a stuck instance a
step again without a reset (DESIGN CHOICE, log entry 18). -/
def stepInstance (k : Nat) (sys : List State) : List State :=
  match sys[k]? with
  | none => sys
  | some s => (sys.set k (stepOrStay s)).map fun u => { u with mem := (stepOrStay s).mem }

/-- The instances step in the order a schedule gives. -/
def runSchedule : List Nat → List State → List State
  | [], sys => sys
  | k :: ks, sys => runSchedule ks (stepInstance k sys)

/-- All instances have the memory `m`. -/
def commonMem (m : Memory) (sys : List State) : Prop := ∀ s ∈ sys, s.mem = m

end Sys2Proof.Machine
end

