-- ==== Sys2Proof/Machine/Ports.lean ====
section
/-! DEFINITION. The output ports (10_state.md R24, 41_sequencer.md R67). -/

namespace Sys2Proof.Machine

/-- What the block drives during a step. -/
structure Outputs where
  crc : Word
  busy : Bool
  done : Bool
  memRe : Bool
  memAddr : Nat
deriving DecidableEq, Repr

/-- The outputs during the coming step (R67): `crc` ungated (R15), the flags, `PTR` on `mem_addr`,
and `mem_re = 1` exactly in a FETCH step (at an undefined address too: DEDUCED, log entry 13). -/
def State.outputs (s : State) : Outputs where
  crc := s.crc
  busy := s.busy
  done := s.done
  memRe := decide (s.kind = .fetch)
  memAddr := s.fetchAddress

end Sys2Proof.Machine
end

