-- ==== Sys2Proof/Machine/Programs.lean ====
section
/-! DEFINITION. The two kinds of program of 30_encoding.md R56: datapath programs, with the sequencer set aside, and host programs. -/

namespace Sys2Proof.Machine

/-- A datapath program: control words applied to `CRC` in order, with the sequencer set aside
(R56). No input of the host makes the block do this (R14). -/
def runDatapath : List CtrlWord → State → Host.Outcome State Fault Refusal
  | [], s => .next s
  | w :: ws, s => andThen (exec (decodeDp w) s) (runDatapath ws)

/-- The host's actions (R56, 70_reset_and_hazards.md R117; DESIGN CHOICE, log entry 15). -/
inductive HostAction where
  /-- One step with `rst = 1`. -/
  | reset
  /-- One step with `start = 1` and the two operands on the ports. -/
  | start (data : Nat) (length : BitVec 16)
  /-- Steps with all inputs 0 until `done = 1`. -/
  | wait
  /-- Read `crc`. -/
  | read
deriving DecidableEq, Repr

/-- What stands of a host program's run so far: the state, the kinds of the steps taken, and the
values read, in order. -/
structure HostRun where
  state : State
  kinds : List StepKind
  reads : List Word
deriving DecidableEq, Repr

/-- A run before its first action. -/
def HostRun.start (s : State) : HostRun := { state := s, kinds := [], reads := [] }

/-- One more step of a run, with the inputs `i`. -/
def HostRun.oneStep (i : HostInput) (r : HostRun) : Host.Outcome HostRun Fault Refusal :=
  match step (r.state.withInputs [i]) with
  | .next t => .next { r with state := t, kinds := r.kinds ++ [(r.state.withInputs [i]).kind] }
  | .fault f => .fault f
  | .refused f => .refused f

/-- Steps with all inputs 0 until `done = 1`, at most `fuel` of them; nothing when `done` does not
come within them. -/
def waitDone : Nat → HostRun → Option (Host.Outcome HostRun Fault Refusal)
  | 0, r => if r.state.done then some (.next r) else none
  | fuel + 1, r =>
    if r.state.done then some (.next r)
    else match r.oneStep HostInput.quiet with
      | .next u => waitDone fuel u
      | .fault f => some (.fault f)
      | .refused f => some (.refused f)

/-- One action of the host, with `fuel` steps for a wait. -/
def HostRun.act (fuel : Nat) (a : HostAction) (r : HostRun) :
    Option (Host.Outcome HostRun Fault Refusal) :=
  match a with
  | .reset => some (r.oneStep { HostInput.quiet with rst := true })
  | .start data length =>
    some (r.oneStep { HostInput.quiet with start := true, data := data, length := length })
  | .wait => waitDone fuel r
  | .read => some (.next { r with reads := r.reads ++ [r.state.crc] })

/-- A host program, with `fuel` steps for each wait: the run it makes. Nothing when a wait does not
end within its fuel. -/
def runHost (fuel : Nat) : List HostAction → HostRun → Option (Host.Outcome HostRun Fault Refusal)
  | [], r => some (.next r)
  | a :: as, r =>
    match r.act fuel a with
    | none => none
    | some (.next u) => runHost fuel as u
    | some (.fault f) => some (.fault f)
    | some (.refused f) => some (.refused f)

end Sys2Proof.Machine
end

