-- ==== Sys2Proof/Machine/TableForm.lean ====
section
/-! DEFINITION. The FORM = table variant of the block (42_equivalent_forms.md R87): one TBL step in place of a FETCH and its eight SHIFTs. It is not the bit-serial machine of this model, whose step is Machine/Step.lean's. -/

namespace Sys2Proof.Machine

/-- The TBL step at the byte `b` (R87): the register by the table, the sequencer as in a FETCH, no
shift owed. -/
def State.tblFetch (s : State) (b : Byte) : State :=
  { s.writeCrc (tblStep s.crc b) with ptr := nextAddress s.aw s.ptr, cnt := decCnt s.cnt, bit := 0 }

/-- One step of the variant: a FETCH step is a TBL step, every other kind is as in the bit-serial
block. -/
def tableFormStep (s : State) : Host.Outcome State Fault Refusal :=
  if s.kind = .fetch then
    match s.fetchByte with
    | none => .fault (.stuckAtUndefinedAddress s.fetchAddress)
    | some b => .next (s.arrive.tblFetch b)
  else s.sequence

/-- `n` steps of the variant. -/
def tableFormStepN : Nat → State → Host.Outcome State Fault Refusal
  | 0, s => .next s
  | n + 1, s => andThen (tableFormStep s) (tableFormStepN n)

end Sys2Proof.Machine
end

