-- ==== Sys2Proof/Safety.lean ====
section
/-! DEFINITION. What the statements are said in terms of: the invariants of the block (10_state.md R23) and of the arguments State carries, the host's side of an operation's contract (41_sequencer.md R77, 20_memory.md R40), a stuck block (R97, R110), and the end of a run (R126). -/

namespace Sys2Proof.Machine

/-- The state invariants (a), (b), (c) of R23. -/
abbrev SequencerInv (s : State) : Prop :=
  s.bit.val ≤ 8 ∧ (s.busy = true → s.done = false) ∧ (s.busy = false → s.bit = 0 ∧ s.cnt = 0)

/-- `AW` is at least 1 (R7), `PTR` is an address (R20), and `MEM` is in canonical form with an
address for every entry (R31). -/
abbrev AddressInv (s : State) : Prop :=
  1 ≤ s.aw ∧ s.ptr < 2 ^ s.aw ∧ s.mem.wf ∧ ∀ c ∈ s.mem, c.1 < 2 ^ s.aw

/-- No reset in the next `n` steps. -/
abbrev NoReset (n : Nat) (s : State) : Prop := ∀ i ∈ s.inputs.take n, i.rst = false

/-- Neither a reset nor a start in the next `n` steps. -/
abbrev OnlyIdle (n : Nat) (s : State) : Prop :=
  ∀ i ∈ s.inputs.take n, i.rst = false ∧ i.start = false

/-- No write of the host in the next `n` steps. -/
abbrev NoWrites (n : Nat) (s : State) : Prop := ∀ i ∈ s.inputs.take n, i.writes = []

/-- The premise of R40 and R78 for a window of `n` steps and the buffer of `length` bytes at
`data`: no reset, and no agent writes a byte of the buffer. -/
abbrev Undisturbed (n data length : Nat) (s : State) : Prop :=
  ∀ i ∈ s.inputs.take n, i.rst = false ∧
    ∀ c ∈ i.writes, ∀ k < length, c.1 % 2 ^ s.aw ≠ (data + k) % 2 ^ s.aw

/-- The buffer does not run past the top of the address space (R122, U5): a duty of the host, without
which no statement claims a result. A buffer of no byte has no address (U4). -/
abbrev InAddressSpace (aw data length : Nat) : Prop := length ≠ 0 → data + length ≤ 2 ^ aw

/-- The block is stuck: its coming step would be a FETCH at an address where `MEM` is undefined
(R31, R97). -/
abbrev Stuck (s : State) : Prop := s.kind = .fetch ∧ s.fetchByte = none

/-- A run that took steps of the kinds `ks` and stands in the state `t` is over (R126): every `START`
accepted in it has reached its FINISH, the host has no further action, and `BUSY = 0`. A run in which
a reset ended an operation is never over in this sense (R113). -/
abbrev RunOver (ks : List StepKind) (t : State) : Prop :=
  everyStartFinished false ks = true ∧ t.inputs = [] ∧ t.busy = false

end Sys2Proof.Machine
end

