-- ==== Sys2Proof/Certificates/Slice0/Obligations.lean ====
section
/-! DEFINITION. The statements for the provers, from the numbered rules of spec/. -/

open Sys2Proof Sys2Proof.Machine

/-! ## The datapath operations (40_datapath.md) -/

/-- R59, `HOLD`: from every state it answers the same state; `b` is ignored and 0x00 when encoded;
the sequencer issues it in IDLE and FINISH steps. -/
def Obligations.HoldKeepsTheRegister : Prop :=
  (∀ s, exec .hold s = .next s) ∧
  (∀ b, decodeDp (ctrlWord 0b00#2 b) = .hold) ∧ encodeDp .hold = some 0x000#10 ∧
  (∀ (s : State) (w : CtrlWord), s.issuedWord = some w → (decodeDp w = .hold ↔ s.kind = .idle ∨ s.kind = .finish))

/-- R60, `CLR`: from every state it answers the state with `CRC` 0x0000 and nothing else changed,
whatever `CRC` was; `b` is ignored; the sequencer issues it in the ACCEPT step alone. -/
def Obligations.ClrClearsTheRegister : Prop :=
  (∀ s, exec .clr s = .next { s with crc := 0x0000 }) ∧
  (∀ b, decodeDp (ctrlWord 0b01#2 b) = .clr) ∧ encodeDp .clr = some 0x100#10 ∧
  (∀ (s : State) (w : CtrlWord), s.issuedWord = some w → (decodeDp w = .clr ↔ s.kind = .accept))

/-- R61, `XORB b`: bit `k` of the byte meets bit `k` of the register, the high byte stays, nothing
else changes; the encoding; issued in FETCH steps alone, with the byte read; the corner cases and
examples. -/
def Obligations.XorbMeetsTheLowByte : Prop :=
  (∀ b s, exec (.xorb b) s = .next { s with crc := s.crc ^^^ zext16 b }) ∧
  (∀ (b : Byte) (c : Word) (k : Nat), k < 8 →
    (dp .xorb b c).getLsbD k = Bool.xor (c.getLsbD k) (b.getLsbD k)) ∧
  (∀ (b : Byte) (c : Word) (k : Nat), 8 ≤ k → (dp .xorb b c).getLsbD k = c.getLsbD k) ∧
  (∀ b, decodeDp (ctrlWord 0b10#2 b) = .xorb b) ∧
  (∀ b, encodeDp (.xorb b) = some (0x200#10 + b.setWidth 10)) ∧
  (∀ (s : State) (w : CtrlWord) (b : Byte), s.issuedWord = some w →
    (decodeDp w = .xorb b ↔ s.kind = .fetch ∧ s.fetchByte = some b)) ∧
  (∀ c, dp .xorb 0x00 c = c) ∧ (∀ b c, dp .xorb b (dp .xorb b c) = c) ∧
  dp .xorb 0x31 0x0000 = 0x0031 ∧ dp .xorb 0x32 0xD4C1 = 0xD4F3 ∧
  dp .xorb 0xFF 0xFFFF = 0xFF00 ∧ dp .xorb 0xAB 0x1234 = 0x129F

/-- R62, `SHR`: the test is of bit 0 before the shift, the shift is logical, the constant 0xA001 is
XORed into the shifted value, nothing else changes; the encoding; issued in SHIFT steps alone, eight
in a row after each FETCH; the corner cases and the example. -/
def Obligations.ShrShiftsAndFeedsBack : Prop :=
  (∀ s, exec .shr s = .next { s with
    crc := if s.crc.getLsbD 0 then (s.crc >>> 1) ^^^ 0xA001 else s.crc >>> 1 }) ∧
  (∀ b, decodeDp (ctrlWord 0b11#2 b) = .shr) ∧ encodeDp .shr = some 0x300#10 ∧
  (∀ (s : State) (w : CtrlWord), s.issuedWord = some w → (decodeDp w = .shr ↔ s.kind = .shift)) ∧
  (∀ (s t : State) (n : Nat), s.kind = .fetch → step s = .next t → NoReset 8 t → n < 8 →
    ∃ u, stepN n t = .next u ∧ u.kind = .shift) ∧
  (∀ c, (dp .shr 0x00 c).getLsbD 15 = c.getLsbD 0) ∧
  [0x0000, 0x0001, 0x0002, 0x8000, 0x8001, 0xFFFF, 0xFFFE, 0xA001, 0x4003, 0x0031].map (dp .shr 0x00) =
    [0x0000, 0xA001, 0x0001, 0x4000, 0xE001, 0xDFFE, 0x7FFF, 0xF001, 0x8000, 0xA019]

/-- R63: every bit of `SHR`'s result from the bits of the old value. -/
def Obligations.ShrBitByBit : Prop :=
  ∀ c : Word,
    (shr1 c).getLsbD 15 = c.getLsbD 0 ∧
    (shr1 c).getLsbD 14 = c.getLsbD 15 ∧
    (shr1 c).getLsbD 13 = Bool.xor (c.getLsbD 14) (c.getLsbD 0) ∧
    (∀ i, 1 ≤ i → i ≤ 12 → (shr1 c).getLsbD i = c.getLsbD (i + 1)) ∧
    (shr1 c).getLsbD 0 = Bool.xor (c.getLsbD 1) (c.getLsbD 0)

/-- R64: `SHR` is a bijection with the inverse the rule gives, and linear over xor; `XORB b` is a
bijection, linear in the pair of register and byte. -/
def Obligations.ShrLinearBijection : Prop :=
  Function.Bijective shr1 ∧
  (∀ n : Word, shr1 (((n ^^^ if n.getLsbD 15 then 0xA001#16 else 0x0000#16).extractLsb' 0 15 ++
    BitVec.ofBool (n.getLsbD 15)).setWidth 16) = n) ∧
  (∀ a c : Word, shr1 (a ^^^ c) = shr1 a ^^^ shr1 c) ∧ shr1 0x0000 = 0x0000 ∧
  (∀ b, Function.Bijective (dp .xorb b)) ∧
  (∀ (a b : Byte) (c d : Word), dp .xorb (a ^^^ b) (c ^^^ d) = dp .xorb a c ^^^ dp .xorb b d)

/-- R64, its last sentence: from 0x0001, repeated `SHR` returns to 0x0001 after 32767 steps and not
before. -/
def Obligations.ShrCycleOfOne : Prop :=
  shrN 32767 0x0001 = 0x0001 ∧ ∀ k, 0 < k → k < 32767 → shrN k 0x0001 ≠ 0x0001

/-- R58, R66: each datapath operation answers a next state from every state; `CRC` becomes a function
of the old `CRC` alone, and every other register, flag and input, and every byte of memory, is
unchanged. -/
def Obligations.DatapathFrame : Prop :=
  ∀ i : Instr, i.format = .dp → ∃ f : Word → Word, ∀ s : State, ∃ t, exec i s = .next t ∧
    t.crc = f s.crc ∧ t.busy = s.busy ∧ t.done = s.done ∧ t.ptr = s.ptr ∧ t.cnt = s.cnt ∧
    t.bit = s.bit ∧ t.aw = s.aw ∧ t.inputs = s.inputs ∧ t.draws = s.draws ∧
    ∀ a, t.mem.read a = s.mem.read a

/-! ## START and the step kinds (41_sequencer.md) -/

/-- R69: `START data, length` accepted. As an operation in every state with `BUSY = 0`; as the
ACCEPT step, taken exactly when `start = 1`, `BUSY = 0` and `rst = 0`, with the operands on the
ports; memory is not read; with `length = 0` the very next step (without reset) is FINISH. For an
address of more than `AW` bits, which no port carries and R69 does not speak of, that its low `AW` bits
are taken is the model's deduction (DEDUCED, log entry 10). -/
def Obligations.StartAccepted : Prop :=
  (∀ data length s, s.busy = false → exec (.start data length) s = .next { s with
    crc := 0x0000, ptr := data % 2 ^ s.aw, cnt := length, bit := 0, busy := true, done := false }) ∧
  (∀ s : State, s.kind = .accept ↔ s.input.start = true ∧ s.busy = false ∧ s.input.rst = false) ∧
  (∀ s : State, s.kind = .accept → s.outputs.memRe = false ∧
    step s = .next { s.arrive with
      crc := 0x0000, ptr := s.input.data % 2 ^ s.aw, cnt := s.input.length, bit := 0,
      busy := true, done := false }) ∧
  (∀ s t : State, s.kind = .accept → s.input.length = 0 → step s = .next t → t.input.rst = false →
    t.kind = .finish)

/-- The frame of `START`: memory, `AW`, the coming inputs and the counter of free values are
unchanged, `CRC` never becomes a value of the host's choosing, and while `BUSY = 1` nothing at all
changes (R66, R69, R74; that `START` by itself has no effect there is the model's deduction from R74,
DEDUCED, log entry 12). -/
def Obligations.StartFrame : Prop :=
  ∀ data length s, ∃ t, exec (.start data length) s = .next t ∧
    (∀ a, t.mem.read a = s.mem.read a) ∧ t.aw = s.aw ∧ t.inputs = s.inputs ∧ t.draws = s.draws ∧
    (t.crc = 0x0000 ∨ t.crc = s.crc) ∧ (s.busy = true → t = s)

/-- R74: `start = 1` while `BUSY = 1` has no effect and is not remembered (the steps are equal, their
next states included); only FINISH ends an accepted operation without a reset; with `start` held the
next operation is accepted right after FINISH, with the operands of its own step. The first clause,
`START` as an operation by itself while `BUSY = 1`, is the model's deduction from R74 (DEDUCED, log
entry 12), and `data mod 2^AW` in the last is that of log entry 10. -/
def Obligations.StartWhileBusyIgnored : Prop :=
  (∀ data length s, s.busy = true → exec (.start data length) s = .next s) ∧
  (∀ (s : State) (i : HostInput) (is : List HostInput) (data : Nat) (length : BitVec 16),
    s.busy = true →
    step (s.withInputs ({ i with start := true, data := data, length := length } :: is)) =
      step (s.withInputs ({ i with start := false } :: is))) ∧
  (∀ s t : State, s.busy = true → s.input.rst = false → step s = .next t → t.busy = false →
    s.kind = .finish) ∧
  (∀ s t : State, s.kind = .finish → step s = .next t → t.input.rst = false → t.input.start = true →
    ∃ u, step t = .next u ∧ u.busy = true ∧ u.ptr = t.input.data % 2 ^ t.aw ∧ u.cnt = t.input.length)

/-- R25: `data` and `length` matter in an ACCEPT step alone, which copies them; `start` matters
exactly where `BUSY = 0` and `rst = 0`. For an address of more than `AW` bits, which no port carries
and R25 does not speak of, that its low `AW` bits are copied is the model's deduction (DEDUCED, log
entry 10). -/
def Obligations.OperandsReadOnlyOnAccept : Prop :=
  (∀ (s : State) (i : HostInput) (is : List HostInput) (data : Nat) (length : BitVec 16),
    (s.withInputs (i :: is)).kind ≠ .accept →
    step (s.withInputs ({ i with data := data, length := length } :: is)) =
      step (s.withInputs (i :: is))) ∧
  (∀ s t : State, s.kind = .accept → step s = .next t →
    t.ptr = s.input.data % 2 ^ s.aw ∧ t.cnt = s.input.length) ∧
  (∀ (s : State) (i : HostInput) (is : List HostInput) (v : Bool),
    s.busy = true ∨ i.rst = true →
    step (s.withInputs ({ i with start := v } :: is)) = step (s.withInputs (i :: is))) ∧
  (∀ (s : State) (i : HostInput) (is : List HostInput), s.busy = false → i.rst = false →
    step (s.withInputs ({ i with start := true } :: is)) ≠
      step (s.withInputs ({ i with start := false } :: is)))

/-- R70: an IDLE step changes nothing of the block and reads no memory, and any number of them
keeps the result. -/
def Obligations.IdleKeepsTheResult : Prop :=
  (∀ s : State, s.kind = .idle ↔ s.busy = false ∧ s.input.start = false ∧ s.input.rst = false) ∧
  (∀ s : State, s.kind = .idle → s.outputs.memRe = false ∧ step s = .next s.arrive) ∧
  (∀ (n : Nat) (s : State), s.busy = false → OnlyIdle n s → ∃ t, stepN n s = .next t ∧
    t.crc = s.crc ∧ t.busy = false ∧ t.done = s.done ∧ t.ptr = s.ptr ∧ t.cnt = s.cnt ∧ t.bit = s.bit)

/-- R71: a SHIFT step; `start`, `data` and `length` are ignored; eight of them follow a FETCH step
and take `BIT` from 8 to 0. -/
def Obligations.ShiftStep : Prop :=
  (∀ s : State, s.kind = .shift ↔ s.busy = true ∧ s.bit ≠ 0 ∧ s.input.rst = false) ∧
  (∀ s : State, s.kind = .shift → s.outputs.memRe = false ∧ ∃ t, step s = .next t ∧
    t = { s.arrive with crc := dp .shr 0x00 s.crc, bit := t.bit } ∧ t.bit.val + 1 = s.bit.val) ∧
  (∀ (s : State) (i : HostInput) (is : List HostInput) (v : Bool) (data : Nat) (length : BitVec 16),
    (s.withInputs (i :: is)).kind = .shift →
    step (s.withInputs ({ i with start := v, data := data, length := length } :: is)) =
      step (s.withInputs (i :: is))) ∧
  (∀ (s t : State) (n : Nat), s.kind = .fetch → step s = .next t → NoReset 8 t → n ≤ 8 →
    ∃ u, stepN n t = .next u ∧ u.bit.val = 8 - n ∧ (n < 8 → u.kind = .shift))

/-- R72: a FETCH step, with `MEM` defined at `PTR` and without; the wrap at the top of the address
space; `start`, `data` and `length` ignored; `CNT = 1` makes the step after the eight shifts a
FINISH. -/
def Obligations.FetchStep : Prop :=
  (∀ s : State, s.kind = .fetch ↔ s.busy = true ∧ s.bit = 0 ∧ s.cnt ≠ 0 ∧ s.input.rst = false) ∧
  (∀ (s : State) (b : Byte), s.kind = .fetch → s.fetchByte = some b →
    s.outputs.memRe = true ∧ s.outputs.memAddr = s.ptr ∧
    step s = .next { s.arrive with
      crc := dp .xorb b s.crc, ptr := (s.ptr + 1) % 2 ^ s.aw, cnt := s.cnt - 1, bit := 8 }) ∧
  (∀ s : State, s.kind = .fetch → s.fetchByte = none →
    step s = .fault (.stuckAtUndefinedAddress s.ptr)) ∧
  (∀ s t : State, s.kind = .fetch → step s = .next t → s.ptr = 2 ^ s.aw - 1 → t.ptr = 0) ∧
  (∀ (s : State) (i : HostInput) (is : List HostInput) (v : Bool) (data : Nat) (length : BitVec 16),
    (s.withInputs (i :: is)).kind = .fetch →
    step (s.withInputs ({ i with start := v, data := data, length := length } :: is)) =
      step (s.withInputs (i :: is))) ∧
  (∀ s t : State, s.kind = .fetch → s.cnt = 1 → step s = .next t → NoReset 9 t →
    ∃ u, stepN 8 t = .next u ∧ u.kind = .finish)

/-- R73: a FINISH step; `start` is ignored in it; the step after it is the earliest that accepts. -/
def Obligations.FinishStep : Prop :=
  (∀ s : State, s.kind = .finish ↔ s.busy = true ∧ s.bit = 0 ∧ s.cnt = 0 ∧ s.input.rst = false) ∧
  (∀ s : State, s.kind = .finish → s.outputs.memRe = false ∧
    step s = .next { s.arrive with busy := false, done := true }) ∧
  (∀ (s : State) (i : HostInput) (is : List HostInput) (v : Bool),
    (s.withInputs (i :: is)).kind = .finish →
    step (s.withInputs ({ i with start := v } :: is)) = step (s.withInputs (i :: is))) ∧
  (∀ s t : State, s.kind = .finish → step s = .next t → t.outputs.done = true ∧
    t.outputs.busy = false ∧ t.outputs.crc = s.crc ∧
    (t.input.rst = false → t.input.start = true → t.kind = .accept))

/-- R68: the kind of a step is the first row of the table whose condition holds; the conditions are
exclusive and exhaustive; every kind of step exists, but a FETCH step only where `MEM` is defined at
`PTR`; the sequencer applies the row's datapath operation. -/
def Obligations.StepKindTable : Prop :=
  (∀ s : State,
    (s.input.rst = true → s.kind = .reset) ∧
    (s.input.rst = false → s.busy = false → s.input.start = true → s.kind = .accept) ∧
    (s.input.rst = false → s.busy = false → s.input.start = false → s.kind = .idle) ∧
    (s.input.rst = false → s.busy = true → s.bit ≠ 0 → s.kind = .shift) ∧
    (s.input.rst = false → s.busy = true → s.bit = 0 → s.cnt ≠ 0 → s.kind = .fetch) ∧
    (s.input.rst = false → s.busy = true → s.bit = 0 → s.cnt = 0 → s.kind = .finish)) ∧
  (∀ s : State, s.kind ≠ .fetch → ∃ t, step s = .next t) ∧
  (∀ s : State, s.kind = .fetch → ((∃ t, step s = .next t) ↔ ∃ b, s.fetchByte = some b)) ∧
  (∀ s t : State, step s = .next t →
    (s.kind = .accept → t.crc = dp .clr 0x00 s.crc) ∧ (s.kind = .idle → t.crc = dp .hold 0x00 s.crc) ∧
    (s.kind = .shift → t.crc = dp .shr 0x00 s.crc) ∧
    (s.kind = .fetch → ∃ b, s.fetchByte = some b ∧ t.crc = dp .xorb b s.crc) ∧
    (s.kind = .finish → t.crc = dp .hold 0x00 s.crc) ∧ (s.kind = .reset → s.issuedWord = none))

/-- R51: the control word of each kind of step; a RESET step issues none. -/
def Obligations.IssuedWordOfEachKind : Prop :=
  ∀ s : State,
    (s.kind = .idle → s.issuedWord = some 0x000#10) ∧
    (s.kind = .accept → s.issuedWord = some 0x100#10) ∧
    (∀ b, s.kind = .fetch → s.fetchByte = some b → s.issuedWord = some (0x200#10 + b.setWidth 10)) ∧
    (s.kind = .shift → s.issuedWord = some 0x300#10) ∧
    (s.kind = .finish → s.issuedWord = some 0x000#10) ∧
    (s.kind = .reset → s.issuedWord = none)

/-- A step runs the decoded instruction: when the sequencer issues a word, the step is `exec` of what
the word decodes to, on the state with this step's inputs taken, and then what the sequencer does
beside it; in an ACCEPT step that is `exec` of the `START` the descriptor on the ports decodes to. That
an ACCEPT step runs the control word's `CLR` and then that `START` is the model's deduction from R51
and R69 (DEDUCED, log entry 11); that the descriptor holds the low `AW` bits of `data` is log entry
10's (DEDUCED). -/
def Obligations.StepRunsTheDecodedInstruction : Prop :=
  (∀ (s : State) (w : CtrlWord), s.issuedWord = some w →
    step s = andThen (exec (decodeDp w) s.arrive) (advance s.kind s.input)) ∧
  (∀ (i : HostInput) (s : State),
    advance .accept i s = exec (.start (i.data % 2 ^ s.aw) i.length) s) ∧
  (∀ (s : State) (i : HostInput), advance .idle i s = .next s ∧
    advance .shift i s = .next { s with bit := decBit s.bit } ∧
    advance .fetch i s = .next { s with ptr := (s.ptr + 1) % 2 ^ s.aw, cnt := s.cnt - 1, bit := 8 } ∧
    advance .finish i s = .next { s with busy := false, done := true })

/-! ## Reset (70_reset_and_hazards.md) -/

/-- R111: a step with `rst = 1` from ANY state, whatever the other inputs, leaves the reset values;
`PTR` is some address, none in particular; no memory request; while `rst` stays 1 the state stays. -/
def Obligations.ResetStep : Prop :=
  (∀ s : State, s.input.rst = true → s.kind = .reset ∧ s.outputs.memRe = false ∧
    ∃ p, p < 2 ^ s.aw ∧ step s = .next { s.arrive with
      crc := 0x0000, busy := false, done := false, cnt := 0x0000, bit := 0, ptr := p,
      draws := s.draws + 1 }) ∧
  (∀ (n : Nat) (s : State), 0 < n → n ≤ s.inputs.length → (∀ i ∈ s.inputs.take n, i.rst = true) →
    ∃ t, stepN n s = .next t ∧ t.crc = 0x0000 ∧ t.busy = false ∧ t.done = false ∧
      t.cnt = 0x0000 ∧ t.bit = 0)

/-- The state right after reset. The values of `CRC`, `BUSY`, `DONE`, `CNT` and `BIT` are R29's; `PTR`
0 (log entry 2), the empty memory (log entry 4), `AW` 16 (log entry 5) and the empty list of inputs
(log entry 6) are the model's choices. -/
def Obligations.ResetStateValues : Prop :=
  State.reset.crc = 0x0000 ∧ State.reset.busy = false ∧ State.reset.done = false ∧
  State.reset.cnt = 0x0000 ∧ State.reset.bit = 0 ∧
  State.reset.ptr = 0 ∧ State.reset.mem = [] ∧ State.reset.aw = 16 ∧ State.reset.inputs = [] ∧
  ∀ a, State.reset.mem.read a = none

/-- R114: after a reset step the next step is IDLE or, on `start = 1`, ACCEPT. -/
def Obligations.IdleAfterReset : Prop :=
  ∀ s t : State, s.input.rst = true → step s = .next t → t.input.rst = false →
    t.busy = false ∧ t.kind = if t.input.start then .accept else .idle

/-- R113: reset during an operation ends it at once, without result; the reads not made are never
made; the buffer is untouched; no other step but FINISH ends an operation. -/
def Obligations.ResetEndsTheOperation : Prop :=
  (∀ s : State, s.busy = true → s.input.rst = true → ∃ t, step s = .next t ∧
    t.busy = false ∧ t.done = false ∧ t.crc = 0x0000 ∧ t.mem = s.mem.writeAll s.aw s.input.writes ∧
    ∀ n, OnlyIdle n t → readAddresses (trace n t) = [] ∧
      ∃ u, stepN n t = .next u ∧ u.busy = false ∧ u.done = false) ∧
  (∀ s t : State, s.busy = true → step s = .next t → t.busy = false →
    s.kind = .finish ∨ s.kind = .reset)

/-! ## What can go wrong (60_exceptions.md) -/

/-- R97, R110: no step is refused; a step faults exactly where the block is stuck, with the one fault
and the address; a reset leaves that state. Stuck means undefined with the host's writes of this very
step made, which is the model's choice (log entries 7 and 18). -/
def Obligations.StuckExactlyWhereUndefined : Prop :=
  (∀ s r, step s ≠ .refused r) ∧
  (∀ s r, step s = .fault r ↔ Stuck s ∧ r = .stuckAtUndefinedAddress s.ptr) ∧
  (∀ (s : State) (i : HostInput) (is : List HostInput), i.rst = true →
    ∃ t, step (s.withInputs (i :: is)) = .next t ∧ t.busy = false)

/-- R97, U2, program P7: if an operation's buffer is defined for its first `k` bytes and undefined at
the next, and nothing disturbs the window, the block is stuck there with `BUSY = 1` and
`DONE = 0`. It claims no result. Addresses are `mod 2^AW` as R30 and R72 say; for an address of more
than `AW` bits on the port that is the model's deduction (DEDUCED, log entry 10). -/
def Obligations.StuckPastTheValidBytes : Prop :=
  ∀ (s : State) (S : List Byte), s.kind = .accept → S.length < s.input.length.toNat →
    s.mem.buffer s.aw s.input.data S.length = some S →
    s.mem.read ((s.input.data + S.length) % 2 ^ s.aw) = none →
    Undisturbed (9 * S.length + 2) s.input.data (S.length + 1) s →
    ∃ t, stepN (9 * S.length + 1) s = .next t ∧ Stuck t ∧ t.busy = true ∧ t.done = false ∧
      step t = .fault (.stuckAtUndefinedAddress ((s.input.data + S.length) % 2 ^ s.aw))

/-! ## Invariants -/

/-- R23: the invariants (a), (b), (c) hold after reset and after a reset step from any state, and
every step keeps them. -/
def Obligations.SequencerStateLegal : Prop :=
  SequencerInv State.reset ∧
  (∀ s t : State, s.input.rst = true → step s = .next t → SequencerInv t) ∧
  (∀ s t : State, SequencerInv s → step s = .next t → SequencerInv t)

/-- Every step keeps `AW` and, with it, that `PTR` is an address and that `MEM` is in canonical form
with an address for every entry (R7, R20, R31). -/
def Obligations.AddressesStayLegal : Prop :=
  ∀ s t : State, AddressInv s → step s = .next t → t.aw = s.aw ∧ AddressInv t

/-- The state after reset meets both invariants (its `PTR`, `AW` and `MEM` are the model's choices, log
entries 2, 4, 5). -/
def Obligations.ResetStateLegal : Prop :=
  SequencerInv State.reset ∧ AddressInv State.reset

/-- Each register and flag is written by the kinds of step the spec names for it and by no other (R14,
R17, R18, R20, R21, R22; a RESET step by R111). -/
def Obligations.WritersOfEachRegister : Prop :=
  ∀ s t : State, step s = .next t →
    (t.crc ≠ s.crc → s.kind = .accept ∨ s.kind = .fetch ∨ s.kind = .shift ∨ s.kind = .reset) ∧
    (t.busy = true → s.busy = false → s.kind = .accept) ∧
    (t.busy = false → s.busy = true → s.kind = .finish ∨ s.kind = .reset) ∧
    (t.done = true → s.done = false → s.kind = .finish) ∧
    (t.done = false → s.done = true → s.kind = .accept ∨ s.kind = .reset) ∧
    (t.ptr ≠ s.ptr → s.kind = .accept ∨ s.kind = .fetch ∨ s.kind = .reset) ∧
    (t.cnt ≠ s.cnt → s.kind = .accept ∨ s.kind = .fetch ∨ s.kind = .reset) ∧
    (t.bit ≠ s.bit → s.kind = .accept ∨ s.kind = .fetch ∨ s.kind = .shift ∨ s.kind = .reset) ∧
    (s.kind = .accept → t.busy = true ∧ t.done = false) ∧
    (s.kind = .finish → t.busy = false ∧ t.done = true) ∧
    (s.kind = .fetch → t.cnt.toNat + 1 = s.cnt.toNat)

/-- R34: no operation and no step writes memory; what changes in a step is what the host wrote. -/
def Obligations.BlockNeverWritesMemory : Prop :=
  (∀ i s t, exec i s = .next t → t.mem = s.mem) ∧
  (∀ s t, step s = .next t → t.mem = s.mem.writeAll s.aw s.input.writes) ∧
  (∀ n s t, NoWrites n s → stepN n s = .next t → t.mem = s.mem)

/-- R41: a FETCH step reads the byte as of its own step. The model's choice: a write the host makes with
that step is seen (DESIGN CHOICE, log entry 7), where `MEM` was undefined too (DESIGN CHOICE, log entry
18); one it makes elsewhere is not, one it makes later is not. -/
def Obligations.ReadSeesItsOwnStep : Prop :=
  (∀ (s : State) (ws : List Host.Cell) (b : Byte), s.ptr < 2 ^ s.aw → s.kind = .fetch →
    s.input.writes = ws ++ [(s.ptr, b)] →
    ∃ t, step s = .next t ∧ t.crc = dp .xorb b s.crc) ∧
  (∀ (s : State) (b : Byte), s.kind = .fetch → s.mem.read s.ptr = some b →
    (∀ c ∈ s.input.writes, c.1 % 2 ^ s.aw ≠ s.ptr) →
    ∃ t, step s = .next t ∧ t.crc = dp .xorb b s.crc)

/-- R67: the outputs during a step are functions of the state, and `mem_re = 1` exactly in a FETCH
step. That it is 1 also where the kind is FETCH but the step does not exist (the stuck state) is the
model's deduction (DEDUCED, log entry 13, unsafe there). -/
def Obligations.OutputsShowTheState : Prop :=
  ∀ s : State, s.outputs.crc = s.crc ∧ s.outputs.busy = s.busy ∧ s.outputs.done = s.done ∧
    s.outputs.memAddr = s.ptr ∧ (s.outputs.memRe = true ↔ s.kind = .fetch)

/-! ## Encodings (30_encoding.md) -/

/-- Decode and encode agree: for every address width and every operation well formed for it, decoding
the encoded word gives the operation back (R52, R53). -/
def Obligations.DecodeOfEncode : Prop :=
  ∀ (aw : Nat) (i : Instr), i.wf aw = true → decode aw (encode aw i) = .ok i

/-- R52: every control word decodes; outside `XORB` the byte is ignored; encoding what a word decodes
to gives the word back exactly when it is canonical, and there are 259 canonical words. -/
def Obligations.ControlWordsAllDecode : Prop :=
  (∀ w : CtrlWord, ∃ i, decode 1 ⟨.dp, 10, w.toNat⟩ = .ok i ∧ i = decodeDp w) ∧
  (∀ b c : Byte, decodeDp (ctrlWord 0b00#2 b) = decodeDp (ctrlWord 0b00#2 c) ∧
    decodeDp (ctrlWord 0b01#2 b) = decodeDp (ctrlWord 0b01#2 c) ∧
    decodeDp (ctrlWord 0b11#2 b) = decodeDp (ctrlWord 0b11#2 c)) ∧
  (∀ w : CtrlWord, encodeDp (decodeDp w) = some w ↔ canonical w = true) ∧
  (∀ w : CtrlWord, canonical w = true ↔
    w = 0x000 ∨ w = 0x100 ∨ (0x200 ≤ w.toNat ∧ w.toNat ≤ 0x2FF) ∨ w = 0x300) ∧
  ((List.range 1024).filter fun n => canonical (BitVec.ofNat 10 n)).length = 259 ∧
  (∀ (i : Instr) (w : CtrlWord), encodeDp i = some w → canonical w = true ∧ decodeDp w = i) ∧
  (∀ (aw data : Nat) (length : BitVec 16), data < 2 ^ aw →
    decode aw (encode aw (.start data length)) = .ok (.start data length))

/-- R50: the opcode map by match and mask, over every word. -/
def Obligations.OpcodeMap : Prop :=
  (∀ w : CtrlWord, (w &&& 0x300 = 0x000 ↔ decodeDp w = .hold) ∧
    (w &&& 0x300 = 0x100 ↔ decodeDp w = .clr) ∧
    (w &&& 0x300 = 0x200 ↔ ∃ b, decodeDp w = .xorb b) ∧
    (w &&& 0x300 = 0x300 ↔ decodeDp w = .shr) ∧
    (w &&& 0x300 = 0x200 → decodeDp w = .xorb (w.extractLsb' 0 8))) ∧
  (∀ (aw : Nat) (d : BitVec (aw + 16)), d &&& 0 = 0 ∧ ∃ data length, decodeDesc d = .start data length)

/-- R48: the fields of the start descriptor, at every address width; the descriptor on the ports of
an accepting step is the one whose `START` it runs. That it holds the low `AW` bits of a number of more
bits, which no port carries, is the model's deduction (DEDUCED, log entry 10). -/
def Obligations.DescriptorFields : Prop :=
  (∀ (aw : Nat) (d : BitVec (aw + 16)),
    decodeDesc d = .start (d.extractLsb' 16 aw).toNat (d.extractLsb' 0 16) ∧
    (decodeDesc d).wf aw = true ∧ encode aw (decodeDesc d) = ⟨.desc, aw + 16, d.toNat⟩) ∧
  (∀ s : State, s.kind = .accept ↔ s.input.start = true ∧ s.busy = false ∧ s.input.rst = false) ∧
  (∀ s t : State, s.kind = .accept → step s = .next t → s.outputs.memRe = false ∧
    exec (decodeDesc (s.input.descriptor s.aw)) s.arrive = .next t)

/-- Words written out from the spec's encodings (95_test_vectors.md section 3.3) decode to what they
stand for. -/
def Obligations.WordsOfTheSpecDecode : Prop :=
  decode 16 ⟨.dp, 10, 0x000⟩ = .ok .hold ∧ decode 16 ⟨.dp, 10, 0x0A5⟩ = .ok .hold ∧
  decode 16 ⟨.dp, 10, 0x1FF⟩ = .ok .clr ∧ decode 16 ⟨.dp, 10, 0x231⟩ = .ok (.xorb 0x31) ∧
  decode 16 ⟨.dp, 10, 0x3FF⟩ = .ok .shr ∧
  decode 16 ⟨.desc, 32, 0x10000009⟩ = .ok (.start 0x1000 9) ∧
  decode 16 ⟨.desc, 32, 0x0000FFFF⟩ = .ok (.start 0 65535) ∧
  decode 32 ⟨.desc, 48, 0x200000000009⟩ = .ok (.start 0x20000000 9)

/-- R46: a word of another width than its format's is refused by name, and so is a number with bits
above its width. -/
def Obligations.DecoderRefusesByName : Prop :=
  (∀ (aw : Nat) (w : RawWord), w.width ≠ w.fmt.width aw → decode aw w = .error (.wrongWidth w.width)) ∧
  (∀ (aw : Nat) (w : RawWord), w.width = w.fmt.width aw → 2 ^ w.width ≤ w.bits →
    decode aw w = .error .bitsAboveWidth) ∧
  (∀ (aw : Nat) (w : RawWord), w.width = w.fmt.width aw → w.bits < 2 ^ w.width →
    ∃ i, decode aw w = .ok i)

/-! ## The checksum and its equivalent forms (41_sequencer.md R76, 42_equivalent_forms.md) -/

/-- R5: `POLY_R` is `POLY` with its bits reversed, the empty buffer gives 0x0000 and "123456789" gives
the check value 0xBB3D, with no final XOR. -/
def Obligations.ParametersAndCheckValue : Prop :=
  (∀ i < 16, Config.polyR.getLsbD i = Config.poly.getLsbD (15 - i)) ∧
  Config.poly = 0x8005 ∧ Config.polyR = 0xA001 ∧ crc16Arc [] = Config.init ∧
  crc16Arc [0x31, 0x32, 0x33, 0x34, 0x35, 0x36, 0x37, 0x38, 0x39] ^^^ Config.xorOut = 0xBB3D

/-- R83: `BYTE b`, the nine control words, run as a datapath program from every state, gives the
register `shr8(CRC xor zext_16(b))` and changes nothing else; the checksum is `CLR` and then the
bytes; the corner cases and examples. -/
def Obligations.ByteIsNineWords : Prop :=
  (∀ b, (byteWords b).map decodeDp = [.xorb b, .shr, .shr, .shr, .shr, .shr, .shr, .shr, .shr]) ∧
  (∀ b s, runDatapath (byteWords b) s = .next { s with crc := shr8 (s.crc ^^^ zext16 b) }) ∧
  (∀ (S : List Byte) (s : State),
    runDatapath (0x100#10 :: S.flatMap byteWords) s = .next { s with crc := crc16Arc S }) ∧
  byteStep 0x0000 0x00 = 0x0000 ∧ (∀ b, byteStep 0x0000 b = tableEntry b) ∧
  byteStep 0x0000 0x31 = 0xD4C1 ∧ byteStep 0xD4C1 0x32 = 0x4594 ∧
  (List.range 9).map (fun k => shrN k 0x0001) =
    [0x0001, 0xA001, 0xF001, 0xD801, 0xCC01, 0xC601, 0xC301, 0xC181, 0xC0C1]

/-- R84: the split of `BYTE`. -/
def Obligations.ByteSplit : Prop :=
  ∀ (c : Word) (b : Byte),
    shr8 (c ^^^ zext16 b) = (c >>> 8) ^^^ tableEntry ((c ^^^ zext16 b).extractLsb' 0 8) ∧
    shr8 (c ^^^ zext16 b) = zext16 (c.extractLsb' 8 8) ^^^ tableEntry (c.extractLsb' 0 8 ^^^ b)

/-- R85, R86: the printed table is `T`, which is the checksum of the one-byte sequences, injective and
linear, so the span of its eight printed entries. -/
def Obligations.TableContents : Prop :=
  table.length = 256 ∧ (∀ i : Byte, tableAt i = tableEntry i) ∧
  (∀ i : Byte, tableEntry i = shr8 (zext16 i) ∧ tableEntry i = crc16Arc [i]) ∧
  Function.Injective tableEntry ∧
  (∀ i j : Byte, tableEntry (i ^^^ j) = tableEntry i ^^^ tableEntry j) ∧
  tableEntry 0x00 = 0x0000 ∧ tableEntry 0xFF = 0x4040 ∧
  [0x01, 0x02, 0x04, 0x08, 0x10, 0x20, 0x40, 0x80].map tableEntry =
    [0xC0C1, 0xC181, 0xC301, 0xC601, 0xCC01, 0xD801, 0xF001, 0xA001]

/-- R87: `TBL b` gives the register `BYTE b` gives, for every register value and byte; the table
variant delivers the checksum of every buffer below the top of the address space (no claim covers
another, U5), in `L + 2` steps. -/
def Obligations.TableFormAgrees : Prop :=
  (∀ (c : Word) (b : Byte), tblStep c b = byteStep c b) ∧
  (∀ (s : State) (S : List Byte), s.kind = .accept →
    s.mem.buffer s.aw s.input.data s.input.length.toNat = some S →
    InAddressSpace s.aw s.input.data s.input.length.toNat →
    Undisturbed (s.input.length.toNat + 2) s.input.data s.input.length.toNat s →
    ∃ t, tableFormStepN (s.input.length.toNat + 2) s = .next t ∧
      t.crc = crc16Arc S ∧ t.busy = false ∧ t.done = true) ∧
  tblStep 0xD4C1 0x32 = 0x4594

/-- R88: the serial-input bit step. -/
def Obligations.SerialStep : Prop :=
  (∀ c : Word, serialStep c false = dp .shr 0x00 c) ∧
  (∀ (c : Word) (d : Bool), serialStep c d = dp .shr 0x00 (dp .xorb (BitVec.ofBool d |>.setWidth 8) c)) ∧
  (∀ (c : Word) (d : Bool), serialStep c d =
    (c >>> 1) ^^^ if Bool.xor (c.getLsbD 0) d then 0xA001#16 else 0x0000#16) ∧
  serialStep 0x0000 true = 0xA001 ∧ serialStep 0xA001 false = 0xF001

/-- R89: `BYTE b` is eight serial steps, the byte's bits least significant first, with the values
between them as the rule gives them; a whole buffer is the serial circuit fed all its bits. -/
def Obligations.ByteIsEightSerialSteps : Prop :=
  (∀ (c : Word) (b : Byte), byteStep c b = serialFrom c (bitsLsbFirst b)) ∧
  (∀ (c : Word) (b : Byte) (k : Nat), k ≤ 8 →
    shrN k (c ^^^ zext16 b) = serialFrom c ((bitsLsbFirst b).take k) ^^^ zext16 (b >>> k)) ∧
  (∀ S : List Byte, crc16Arc S = serialFrom 0x0000 (S.flatMap bitsLsbFirst) ∧
    (S.flatMap bitsLsbFirst).length = 8 * S.length)

/-- R90: the checksum is linear over sequences of one length, each `BYTE` being linear in the pair of
register and byte. -/
def Obligations.ChecksumLinear : Prop :=
  (∀ A B : List Byte, A.length = B.length →
    crc16Arc (A.zipWith (· ^^^ ·) B) = crc16Arc A ^^^ crc16Arc B) ∧
  (∀ n, crc16Arc (List.replicate n 0x00) = 0x0000) ∧
  (∀ (c d : Word) (a b : Byte), byteStep (c ^^^ d) (a ^^^ b) = byteStep c a ^^^ byteStep d b) ∧
  crc16Arc [0x61, 0x62, 0x63] = 0x9738 ∧ crc16Arc [0x78, 0x79, 0x7A] = 0x6A22 ∧
  crc16Arc [0x19, 0x1B, 0x19] = 0xFD1A

/-- R91: leading zero bytes are invisible; trailing ones are not. -/
def Obligations.LeadingZerosInvisible : Prop :=
  (∀ (k : Nat) (S : List Byte), crc16Arc (List.replicate k 0x00 ++ S) = crc16Arc S) ∧
  (∀ k, crc16Arc (List.replicate k 0x00) = 0x0000) ∧ crc16Arc [] = 0x0000 ∧
  crc16Arc [0x31, 0x32, 0x33, 0x34, 0x35, 0x36, 0x37, 0x38, 0x39] = 0xBB3D ∧
  crc16Arc [0x31, 0x32, 0x33, 0x34, 0x35, 0x36, 0x37, 0x38, 0x39, 0x00] = 0xD17A

/-- R92: a flip of one bit, bit `k` of byte `i`, always changes the checksum, and by exactly the value
the rule gives. -/
def Obligations.SingleBitErrorsDetected : Prop :=
  ∀ (S : List Byte) (i k : Nat) (h : i < S.length), k < 8 →
    crc16Arc (S.set i (S[i] ^^^ (1#8 <<< k))) ≠ crc16Arc S ∧
    crc16Arc (S.set i (S[i] ^^^ (1#8 <<< k))) ^^^ crc16Arc S =
      shrN (8 * (S.length - i) - k) 0x0001

/-- R92, its last sentence: two flipped bits escape detection exactly when their distance in the bit
stream is a multiple of 32767. -/
def Obligations.DoubleBitErrorsEscape : Prop :=
  ∀ (S E : List Byte) (p q : Nat), p < q → q < 8 * S.length → E.length = S.length →
    E.flatMap bitsLsbFirst = (List.range (8 * S.length)).map (fun n => decide (n = p ∨ n = q)) →
    (crc16Arc (S.zipWith (· ^^^ ·) E) = crc16Arc S ↔ 32767 ∣ q - p)

/-- R93: the residue is 0x0000 with the checksum appended low byte first; high byte first it is the
rule's values for its two examples. -/
def Obligations.Residue : Prop :=
  (∀ S : List Byte, crc16Arc (S ++ [(crc16Arc S).extractLsb' 0 8, (crc16Arc S).extractLsb' 8 8]) = 0x0000) ∧
  crc16Arc [0x31, 0x32, 0x33, 0x34, 0x35, 0x36, 0x37, 0x38, 0x39, 0xBB, 0x3D] = 0xC2E3 ∧
  crc16Arc [0x68, 0x65, 0x6C, 0x6C, 0x6F, 0x34, 0xD2] = 0xEACB

/-- R94: the checksum is a left fold; no `START` lets it begin elsewhere than at 0x0000. -/
def Obligations.ChecksumComposes : Prop :=
  (∀ S U : List Byte, crc16Arc (S ++ U) = U.foldl (fun c b => shr8 (c ^^^ zext16 b)) (crc16Arc S)) ∧
  (∀ s t : State, s.kind = .accept → step s = .next t → t.crc = 0x0000)

/-- R13: every one of the 65536 values of `CRC` is reached, by the checksum of some two bytes. -/
def Obligations.EveryRegisterValueReached : Prop :=
  ∀ c : Word, ∃ a b : Byte, crc16Arc [a, b] = c

/-! ## The whole operation -/

/-- R78: an operation over a defined and undisturbed buffer below the top of the address space (no
claim covers another, U5, R122) takes the steps the rule lists, in order, issues exactly the expansion
of `CALC`, has the register of R76 after each byte, and ends with the checksum; which then stays until
the next ACCEPT or reset. With `length = 0` and an address of more than `AW` bits, `PTR` at the end is
log entry 10's (DEDUCED). -/
def Obligations.OperationComputesTheChecksum : Prop :=
  ∀ (s : State) (S : List Byte), s.kind = .accept →
    s.mem.buffer s.aw s.input.data s.input.length.toNat = some S →
    InAddressSpace s.aw s.input.data s.input.length.toNat →
    Undisturbed (9 * S.length + 2) s.input.data S.length s →
    S.length = s.input.length.toNat ∧
    trace (9 * S.length + 2) s = operationRecords s.aw s.input.data S ∧
    issuedWords (trace (9 * S.length + 2) s) = calcWords S ∧
    (∀ i ≤ S.length, ∃ u, stepN (9 * i + 1) s = .next u ∧ u.crc = crc16Arc (S.take i)) ∧
    ∃ t, stepN (9 * S.length + 2) s = .next t ∧ t.crc = crc16Arc S ∧ t.busy = false ∧
      t.done = true ∧ t.cnt = 0 ∧ t.bit = 0 ∧ t.ptr = (s.input.data + S.length) % 2 ^ s.aw ∧
      ∀ n, OnlyIdle n t → ∃ u, stepN n t = .next u ∧ u.crc = crc16Arc S ∧ u.busy = false ∧
        u.done = true ∧ u.cnt = 0 ∧ u.bit = 0 ∧ u.ptr = t.ptr

/-- R33, R125: an operation of length `L` reads exactly the addresses of its buffer, in ascending
order, read `i` in its step `2 + 9i`, and no other step of it reads. It claims no result; the addresses
are `mod 2^AW` in R33's own words, and for an address of more than `AW` bits on the port that is the
model's deduction (DEDUCED, log entry 10). -/
def Obligations.OperationReadsItsBuffer : Prop :=
  ∀ (s : State) (S : List Byte), s.kind = .accept →
    s.mem.buffer s.aw s.input.data s.input.length.toNat = some S →
    Undisturbed (9 * S.length + 2) s.input.data S.length s →
    readAddresses (trace (9 * S.length + 2) s) =
      (List.range S.length).map (fun i => (s.input.data + i) % 2 ^ s.aw) ∧
    ∀ n < 9 * S.length + 2, ∃ u, stepN n s = .next u ∧
      (u.outputs.memRe = true ↔ ∃ i < S.length, n + 1 = 2 + 9 * i) ∧
      (∀ i < S.length, n + 1 = 2 + 9 * i → u.outputs.memAddr = (s.input.data + i) % 2 ^ s.aw)

/-- R79: a zero-length operation is two steps, reads nothing, and gives 0x0000, whatever `data` and
wherever `MEM` is undefined. -/
def Obligations.ZeroLengthOperation : Prop :=
  ∀ s : State, s.kind = .accept → s.input.length = 0 → NoReset 2 s →
    readAddresses (trace 2 s) = [] ∧ (trace 2 s).map StepRecord.kind = [.accept, .finish] ∧
    ∃ t, stepN 2 s = .next t ∧ t.crc = 0x0000 ∧ t.busy = false ∧ t.done = true ∧
      t.crc = crc16Arc []

/-- R80: `9 * CNT + BIT` falls by exactly 1 in every FETCH and SHIFT step, FINISH occurs when it is 0;
from every busy state whose remaining bytes are defined, without a reset, the operation finishes in
exactly that many steps and one; so an accepted operation of length `L` finishes in `9L + 2` steps, at
most 589817, whatever the host writes meanwhile. -/
def Obligations.EveryOperationFinishes : Prop :=
  (∀ s t : State, s.kind = .fetch ∨ s.kind = .shift → step s = .next t →
    9 * t.cnt.toNat + t.bit.val + 1 = 9 * s.cnt.toNat + s.bit.val) ∧
  (∀ s : State, s.busy = true → s.input.rst = false →
    (s.kind = .finish ↔ 9 * s.cnt.toNat + s.bit.val = 0)) ∧
  (∀ (s : State) (S : List Byte), s.busy = true → s.ptr < 2 ^ s.aw →
    s.mem.buffer s.aw s.ptr s.cnt.toNat = some S →
    NoReset (9 * s.cnt.toNat + s.bit.val + 1) s →
    ∃ t, stepN (9 * s.cnt.toNat + s.bit.val + 1) s = .next t ∧ t.busy = false ∧ t.done = true) ∧
  (∀ (s : State) (S : List Byte), s.kind = .accept →
    s.mem.buffer s.aw s.input.data s.input.length.toNat = some S →
    NoReset (9 * s.input.length.toNat + 2) s →
    9 * s.input.length.toNat + 2 ≤ 589817 ∧
    (∀ n < 9 * s.input.length.toNat + 1, ∃ u, stepN (n + 1) s = .next u ∧ u.busy = true) ∧
    ∃ t, stepN (9 * s.input.length.toNat + 2) s = .next t ∧ t.busy = false ∧ t.done = true)

/-- R81, R2: the accepting step overwrites all six state elements: two states that differ in them
alone, both idle, have the same next state; and the result of an operation depends on its bytes
alone, not on the state before it nor on where they stand below the top of the address space (no
claim covers another buffer, U5). -/
def Obligations.OperationsAreIndependent : Prop :=
  (∀ s u : State, s.kind = .accept → u.kind = .accept → s.aw = u.aw → s.mem = u.mem →
    s.inputs = u.inputs → s.draws = u.draws → step s = step u) ∧
  (∀ (s u : State) (S : List Byte), s.kind = .accept → u.kind = .accept →
    s.mem.buffer s.aw s.input.data s.input.length.toNat = some S →
    u.mem.buffer u.aw u.input.data u.input.length.toNat = some S →
    InAddressSpace s.aw s.input.data s.input.length.toNat →
    InAddressSpace u.aw u.input.data u.input.length.toNat →
    Undisturbed (9 * S.length + 2) s.input.data S.length s →
    Undisturbed (9 * S.length + 2) u.input.data S.length u →
    ∃ v w, stepN (9 * S.length + 2) s = .next v ∧ stepN (9 * S.length + 2) u = .next w ∧
      v.crc = w.crc)

/-- R77, R117, R126, within the host's contract (each buffer defined and below the top of the address
space, U5; enough steps to wait): a host program that resets and then, for each of its jobs in turn,
starts the operation, waits and reads, reads the checksum of each job's buffer, in order; the run is
then over, with the checksum of the last job in `CRC`, and memory is what it was. Which steps the
actions are (one each for RESET and START, none for a read, waits within a number of steps) is the
model's choice (DESIGN CHOICE, log entry 15), and that a run is over by its accepted `START`s is D25's
word (DEDUCED, log entry 20). -/
def Obligations.HostProgramReadsTheChecksums : Prop :=
  ∀ (s : State) (jobs : List (Nat × BitVec 16 × List Byte)) (fuel : Nat),
    (∀ j ∈ jobs, s.mem.buffer s.aw j.1 j.2.1.toNat = some j.2.2 ∧
      InAddressSpace s.aw j.1 j.2.1.toNat ∧ 9 * j.2.1.toNat + 1 ≤ fuel) →
    ∃ r, runHost fuel (.reset :: jobs.flatMap fun j => [.start j.1 j.2.1, .wait, .read])
        (HostRun.start s) = some (.next r) ∧
      r.reads = jobs.map (fun j => crc16Arc j.2.2) ∧ RunOver r.kinds r.state ∧
      r.state.mem = s.mem ∧
      ∀ j, jobs.getLast? = some j → r.state.done = true ∧ r.state.crc = crc16Arc j.2.2

/-- R108: instances that read one common memory, whose hosts write nothing: in any interleaving of their
steps each reaches the state it would reach alone, and the memory stays common. That they are a list
with one memory and that a stuck one stays is the model's choice (DESIGN CHOICE, log entry 14). The last
clause: a stuck one keeps its registers while its inputs go by, the model's choice (DESIGN CHOICE, log
entry 19), so that a reset that comes next in its list frees it. -/
def Obligations.InstancesDoNotInteract : Prop :=
  (∀ (ks : List Nat) (sys : List State) (m : Memory), commonMem m sys →
    (∀ s ∈ sys, ∀ i ∈ s.inputs, i.writes = []) →
    commonMem m (runSchedule ks sys) ∧
    ∀ (k : Nat) (s : State), sys[k]? = some s →
      (runSchedule ks sys)[k]? = some (runOrStay (ks.count k) s)) ∧
  (∀ s : State, Stuck s → stepOrStay s = s.arrive ∧
    (s.arrive.input.rst = true → (runOrStay 2 s).busy = false))

/-- R126, of every run that begins with a reset step: every accepted `START` has reached its FINISH
exactly when `BUSY = 0` now and no later reset step came while `BUSY = 1`; and a run that is over
stands in an idle state, with `DONE = 1` exactly when an operation was accepted since its last reset.
That a `START` is counted when it is accepted is D25's word (DEDUCED, log entry 20). -/
def Obligations.FinalStateOfARun : Prop :=
  ∀ (n : Nat) (s t : State), 0 < n → s.input.rst = true → stepN n s = .next t →
    (everyStartFinished false (stepKinds n s) = true ↔ t.busy = false ∧
      ∀ m u, 0 < m → m < n → stepN m s = .next u → u.kind = .reset → u.busy = false) ∧
    (RunOver (stepKinds n s) t →
      t.kind = .idle ∧ (t.done = true ↔ StepKind.accept ∈ sinceReset (stepKinds n s)))
end

