-- ==== Sys2Proof/Laws/Decode.lean ====
section
/-! SUPPORT. The small lemmas of the control word's fields and of the two decoders. -/

namespace Sys2Proof

@[simp] theorem opField_ctrlWord (op : BitVec 2) (b : Byte) : opField (ctrlWord op b) = op := by
  ext i hi
  simp only [opField, ctrlWord, BitVec.getElem_extractLsb', BitVec.getLsbD_append]
  rw [if_neg (by omega)]
  simp [hi]

@[simp] theorem byteField_ctrlWord (op : BitVec 2) (b : Byte) : byteField (ctrlWord op b) = b := by
  ext i hi
  simp only [byteField, ctrlWord, BitVec.getElem_extractLsb', BitVec.getLsbD_append]
  rw [if_pos (by omega)]
  simp [hi]

/-- A control word is the concatenation of its two fields. -/
theorem ctrlWord_fields (w : CtrlWord) : ctrlWord (opField w) (byteField w) = w := by
  refine BitVec.eq_of_getLsbD_eq fun i hi => ?_
  simp only [ctrlWord, opField, byteField, BitVec.getLsbD_append, BitVec.getLsbD_extractLsb']
  split
  · simp [*]
  · rw [show 8 + (i - 8) = i by omega]; simp; omega

/-- What a control word decodes to, by its `op` field. -/
theorem decodeDp_cases (w : CtrlWord) :
    (opField w = 0b00#2 ∧ decodeDp w = .hold) ∨ (opField w = 0b01#2 ∧ decodeDp w = .clr) ∨
    (opField w = 0b10#2 ∧ decodeDp w = .xorb (byteField w)) ∨ (opField w = 0b11#2 ∧ decodeDp w = .shr) := by
  have h : ∀ op : BitVec 2, op = 0b00#2 ∨ op = 0b01#2 ∨ op = 0b10#2 ∨ op = 0b11#2 := by decide
  rcases h (opField w) with h | h | h | h <;> simp [decodeDp, h]

@[simp] theorem decodeDp_holdWord (b : Byte) : decodeDp (ctrlWord 0b00#2 b) = .hold := by simp [decodeDp]
@[simp] theorem decodeDp_clrWord (b : Byte) : decodeDp (ctrlWord 0b01#2 b) = .clr := by simp [decodeDp]
@[simp] theorem decodeDp_xorbWord (b : Byte) : decodeDp (ctrlWord 0b10#2 b) = .xorb b := by simp [decodeDp]
@[simp] theorem decodeDp_shrWord (b : Byte) : decodeDp (ctrlWord 0b11#2 b) = .shr := by simp [decodeDp]

/-- The decoder on a control word of the right width. -/
theorem decode_dp (aw : Nat) {n : Nat} (h : n < 2 ^ 10) :
    decode aw ⟨.dp, 10, n⟩ = .ok (decodeDp (BitVec.ofNat 10 n)) := by
  unfold decode
  rw [if_neg (by simp [Format.width]), if_neg (by simpa using h)]

/-- The decoder on a descriptor of the right width. -/
theorem decode_desc (aw : Nat) {n : Nat} (h : n < 2 ^ (aw + 16)) :
    decode aw ⟨.desc, aw + 16, n⟩ = .ok (decodeDesc (aw := aw) (BitVec.ofNat (aw + 16) n)) := by
  unfold decode
  rw [if_neg (by simp [Format.width]), if_neg (by simpa using h)]

end Sys2Proof
end

