-- ==== Sys2Proof/Laws/Memory.lean ====
section
/-! SUPPORT. The launch memory: a read after a write, and that every memory operation keeps the canonical form. -/

namespace Sys2Proof.Machine

theorem Memory.read_write_same (m : Memory) (a : Nat) (v : Byte) : (m.write a v).read a = some v := by
  induction m with
  | nil => simp [Memory.write, Memory.read]
  | cons p m ih =>
    obtain ⟨k, w⟩ := p
    simp only [Memory.write]
    split
    · simp [Memory.read]
    · split
      · simp [Memory.read]
      · simp only [Memory.read]
        rw [if_neg (by omega), ih]

theorem Memory.read_write_other (m : Memory) {a b : Nat} (v : Byte) (h : b ≠ a) :
    (m.write a v).read b = m.read b := by
  induction m with
  | nil => simp [Memory.write, Memory.read, Ne.symm h]
  | cons p m ih =>
    obtain ⟨k, w⟩ := p
    simp only [Memory.write]
    split
    · simp [Memory.read, Ne.symm h]
    · split
      · subst_vars; simp [Memory.read, Ne.symm h]
      · simp only [Memory.read, ih]

/-- Every address listed after a write was listed before it or is the one written. -/
theorem Memory.mem_write {m : Memory} {a : Nat} {v : Byte} {c : Host.Cell} (h : c ∈ m.write a v) :
    c ∈ m ∨ c = (a, v) := by
  induction m with
  | nil => simp_all [Memory.write]
  | cons p m ih =>
    obtain ⟨k, w⟩ := p
    simp only [Memory.write] at h
    split at h
    · simp_all; tauto
    · split at h
      · simp_all; tauto
      · rcases List.mem_cons.1 h with rfl | h
        · simp
        · rcases ih h with h | h <;> simp [h]

theorem Memory.write_wf {m : Memory} (a : Nat) (v : Byte) (h : m.wf) : (m.write a v).wf := by
  induction m with
  | nil => simp [Memory.write, Memory.wf]
  | cons p m ih =>
    obtain ⟨k, w⟩ := p
    obtain ⟨hk, hm⟩ := List.pairwise_cons.1 h
    simp only [Memory.write]
    split
    next hlt =>
      refine List.pairwise_cons.2 ⟨fun q hq => ?_, h⟩
      rcases List.mem_cons.1 hq with rfl | hq
      · exact hlt
      · exact lt_trans hlt (hk q hq)
    next hlt =>
      split
      next heq => subst heq; exact List.pairwise_cons.2 ⟨hk, hm⟩
      next hne =>
        refine List.pairwise_cons.2 ⟨fun q hq => ?_, ih hm⟩
        rcases Memory.mem_write hq with hq | rfl
        · exact hk q hq
        · show k < a; omega

theorem Memory.writeAll_wf (aw : Nat) {m : Memory} (ws : List Host.Cell) (h : m.wf) :
    (m.writeAll aw ws).wf := by
  induction ws generalizing m with
  | nil => exact h
  | cons c ws ih => exact ih (Memory.write_wf _ _ h)

/-- Writes at `aw`-bit addresses list only `aw`-bit addresses. -/
theorem Memory.writeAll_lt (aw : Nat) {m : Memory} (ws : List Host.Cell)
    (h : ∀ c ∈ m, c.1 < 2 ^ aw) : ∀ c ∈ m.writeAll aw ws, c.1 < 2 ^ aw := by
  induction ws generalizing m with
  | nil => exact h
  | cons c ws ih =>
    refine ih fun q hq => ?_
    rcases Memory.mem_write hq with hq | rfl
    · exact h q hq
    · exact Nat.mod_lt _ (by positivity)

/-- A write of the host at another address than `a` leaves the read of `a` alone. -/
theorem Memory.read_writeAll_other (aw : Nat) {m : Memory} {a : Nat} (ws : List Host.Cell)
    (h : ∀ c ∈ ws, c.1 % 2 ^ aw ≠ a) : (m.writeAll aw ws).read a = m.read a := by
  induction ws generalizing m with
  | nil => rfl
  | cons c ws ih =>
    simp only [Memory.writeAll]
    rw [ih fun q hq => h q (by simp [hq]), Memory.read_write_other _ _ (Ne.symm (h c (by simp)))]

/-- The last write of a list is what its address reads as. -/
theorem Memory.read_writeAll_append (aw : Nat) (m : Memory) (ws : List Host.Cell) (a : Nat) (v : Byte) :
    (m.writeAll aw (ws ++ [(a, v)])).read (a % 2 ^ aw) = some v := by
  induction ws generalizing m with
  | nil => simp [Memory.writeAll, Memory.read_write_same]
  | cons c ws ih => simpa [Memory.writeAll] using ih _

theorem State.reset_mem_wf : State.reset.mem.wf := List.Pairwise.nil

end Sys2Proof.Machine
end

