-- ==== Sys2Proof/Laws/State.lean ====
section
/-! SUPPORT. One lemma for each field of State under each named update, true by rfl, so that no later proof unfolds a record update. -/

namespace Sys2Proof.Machine

variable (s : State)

@[simp] theorem State.writeCrc_crc (c : Word) : (s.writeCrc c).crc = c := rfl
@[simp] theorem State.writeCrc_busy (c : Word) : (s.writeCrc c).busy = s.busy := rfl
@[simp] theorem State.writeCrc_done (c : Word) : (s.writeCrc c).done = s.done := rfl
@[simp] theorem State.writeCrc_ptr (c : Word) : (s.writeCrc c).ptr = s.ptr := rfl
@[simp] theorem State.writeCrc_cnt (c : Word) : (s.writeCrc c).cnt = s.cnt := rfl
@[simp] theorem State.writeCrc_bit (c : Word) : (s.writeCrc c).bit = s.bit := rfl
@[simp] theorem State.writeCrc_aw (c : Word) : (s.writeCrc c).aw = s.aw := rfl
@[simp] theorem State.writeCrc_mem (c : Word) : (s.writeCrc c).mem = s.mem := rfl
@[simp] theorem State.writeCrc_inputs (c : Word) : (s.writeCrc c).inputs = s.inputs := rfl
@[simp] theorem State.writeCrc_draws (c : Word) : (s.writeCrc c).draws = s.draws := rfl

@[simp] theorem State.arrive_crc : s.arrive.crc = s.crc := rfl
@[simp] theorem State.arrive_busy : s.arrive.busy = s.busy := rfl
@[simp] theorem State.arrive_done : s.arrive.done = s.done := rfl
@[simp] theorem State.arrive_ptr : s.arrive.ptr = s.ptr := rfl
@[simp] theorem State.arrive_cnt : s.arrive.cnt = s.cnt := rfl
@[simp] theorem State.arrive_bit : s.arrive.bit = s.bit := rfl
@[simp] theorem State.arrive_aw : s.arrive.aw = s.aw := rfl
@[simp] theorem State.arrive_mem : s.arrive.mem = s.mem.writeAll s.aw s.input.writes := rfl
@[simp] theorem State.arrive_inputs : s.arrive.inputs = s.inputs.tail := rfl
@[simp] theorem State.arrive_draws : s.arrive.draws = s.draws := rfl

@[simp] theorem State.withInputs_crc (is : List HostInput) : (s.withInputs is).crc = s.crc := rfl
@[simp] theorem State.withInputs_busy (is : List HostInput) : (s.withInputs is).busy = s.busy := rfl
@[simp] theorem State.withInputs_done (is : List HostInput) : (s.withInputs is).done = s.done := rfl
@[simp] theorem State.withInputs_ptr (is : List HostInput) : (s.withInputs is).ptr = s.ptr := rfl
@[simp] theorem State.withInputs_cnt (is : List HostInput) : (s.withInputs is).cnt = s.cnt := rfl
@[simp] theorem State.withInputs_bit (is : List HostInput) : (s.withInputs is).bit = s.bit := rfl
@[simp] theorem State.withInputs_aw (is : List HostInput) : (s.withInputs is).aw = s.aw := rfl
@[simp] theorem State.withInputs_mem (is : List HostInput) : (s.withInputs is).mem = s.mem := rfl
@[simp] theorem State.withInputs_inputs (is : List HostInput) : (s.withInputs is).inputs = is := rfl
@[simp] theorem State.withInputs_draws (is : List HostInput) : (s.withInputs is).draws = s.draws := rfl

@[simp] theorem State.flagsAccepted_crc : s.flagsAccepted.crc = s.crc := rfl
@[simp] theorem State.flagsAccepted_busy : s.flagsAccepted.busy = true := rfl
@[simp] theorem State.flagsAccepted_done : s.flagsAccepted.done = false := rfl
@[simp] theorem State.flagsAccepted_ptr : s.flagsAccepted.ptr = s.ptr := rfl
@[simp] theorem State.flagsAccepted_cnt : s.flagsAccepted.cnt = s.cnt := rfl
@[simp] theorem State.flagsAccepted_bit : s.flagsAccepted.bit = s.bit := rfl
@[simp] theorem State.flagsAccepted_aw : s.flagsAccepted.aw = s.aw := rfl
@[simp] theorem State.flagsAccepted_mem : s.flagsAccepted.mem = s.mem := rfl
@[simp] theorem State.flagsAccepted_inputs : s.flagsAccepted.inputs = s.inputs := rfl
@[simp] theorem State.flagsAccepted_draws : s.flagsAccepted.draws = s.draws := rfl

@[simp] theorem State.flagsFinished_crc : s.flagsFinished.crc = s.crc := rfl
@[simp] theorem State.flagsFinished_busy : s.flagsFinished.busy = false := rfl
@[simp] theorem State.flagsFinished_done : s.flagsFinished.done = true := rfl
@[simp] theorem State.flagsFinished_ptr : s.flagsFinished.ptr = s.ptr := rfl
@[simp] theorem State.flagsFinished_cnt : s.flagsFinished.cnt = s.cnt := rfl
@[simp] theorem State.flagsFinished_bit : s.flagsFinished.bit = s.bit := rfl
@[simp] theorem State.flagsFinished_aw : s.flagsFinished.aw = s.aw := rfl
@[simp] theorem State.flagsFinished_mem : s.flagsFinished.mem = s.mem := rfl
@[simp] theorem State.flagsFinished_inputs : s.flagsFinished.inputs = s.inputs := rfl
@[simp] theorem State.flagsFinished_draws : s.flagsFinished.draws = s.draws := rfl

@[simp] theorem State.flagsReset_crc : s.flagsReset.crc = s.crc := rfl
@[simp] theorem State.flagsReset_busy : s.flagsReset.busy = false := rfl
@[simp] theorem State.flagsReset_done : s.flagsReset.done = false := rfl
@[simp] theorem State.flagsReset_ptr : s.flagsReset.ptr = s.ptr := rfl
@[simp] theorem State.flagsReset_cnt : s.flagsReset.cnt = s.cnt := rfl
@[simp] theorem State.flagsReset_bit : s.flagsReset.bit = s.bit := rfl
@[simp] theorem State.flagsReset_aw : s.flagsReset.aw = s.aw := rfl
@[simp] theorem State.flagsReset_mem : s.flagsReset.mem = s.mem := rfl
@[simp] theorem State.flagsReset_inputs : s.flagsReset.inputs = s.inputs := rfl
@[simp] theorem State.flagsReset_draws : s.flagsReset.draws = s.draws := rfl

@[simp] theorem State.accept_crc (data : Nat) (length : BitVec 16) : (s.accept data length).crc = 0x0000 := rfl
@[simp] theorem State.accept_busy (data : Nat) (length : BitVec 16) : (s.accept data length).busy = true := rfl
@[simp] theorem State.accept_done (data : Nat) (length : BitVec 16) : (s.accept data length).done = false := rfl
@[simp] theorem State.accept_ptr (data : Nat) (length : BitVec 16) : (s.accept data length).ptr = data % 2 ^ s.aw := rfl
@[simp] theorem State.accept_cnt (data : Nat) (length : BitVec 16) : (s.accept data length).cnt = length := rfl
@[simp] theorem State.accept_bit (data : Nat) (length : BitVec 16) : (s.accept data length).bit = 0 := rfl
@[simp] theorem State.accept_aw (data : Nat) (length : BitVec 16) : (s.accept data length).aw = s.aw := rfl
@[simp] theorem State.accept_mem (data : Nat) (length : BitVec 16) : (s.accept data length).mem = s.mem := rfl
@[simp] theorem State.accept_inputs (data : Nat) (length : BitVec 16) : (s.accept data length).inputs = s.inputs := rfl
@[simp] theorem State.accept_draws (data : Nat) (length : BitVec 16) : (s.accept data length).draws = s.draws := rfl

@[simp] theorem State.resetBlock_crc : s.resetBlock.crc = 0x0000 := rfl
@[simp] theorem State.resetBlock_busy : s.resetBlock.busy = false := rfl
@[simp] theorem State.resetBlock_done : s.resetBlock.done = false := rfl
@[simp] theorem State.resetBlock_ptr : s.resetBlock.ptr = Config.resetPtr s.draws % 2 ^ s.aw := rfl
@[simp] theorem State.resetBlock_cnt : s.resetBlock.cnt = 0x0000 := rfl
@[simp] theorem State.resetBlock_bit : s.resetBlock.bit = 0 := rfl
@[simp] theorem State.resetBlock_aw : s.resetBlock.aw = s.aw := rfl
@[simp] theorem State.resetBlock_mem : s.resetBlock.mem = s.mem := rfl
@[simp] theorem State.resetBlock_inputs : s.resetBlock.inputs = s.inputs := rfl
@[simp] theorem State.resetBlock_draws : s.resetBlock.draws = s.draws + 1 := rfl

@[simp] theorem State.idled_crc : s.idled.crc = s.crc := rfl
@[simp] theorem State.idled_busy : s.idled.busy = false := rfl
@[simp] theorem State.idled_done : s.idled.done = s.done := rfl
@[simp] theorem State.idled_ptr : s.idled.ptr = s.ptr := rfl
@[simp] theorem State.idled_cnt : s.idled.cnt = 0 := rfl
@[simp] theorem State.idled_bit : s.idled.bit = 0 := rfl
@[simp] theorem State.idled_aw : s.idled.aw = s.aw := rfl
@[simp] theorem State.idled_mem : s.idled.mem = s.mem := rfl
@[simp] theorem State.idled_inputs : s.idled.inputs = s.inputs := rfl
@[simp] theorem State.idled_draws : s.idled.draws = s.draws := rfl

@[simp] theorem State.tblFetch_crc (b : Byte) : (s.tblFetch b).crc = tblStep s.crc b := rfl
@[simp] theorem State.tblFetch_busy (b : Byte) : (s.tblFetch b).busy = s.busy := rfl
@[simp] theorem State.tblFetch_done (b : Byte) : (s.tblFetch b).done = s.done := rfl
@[simp] theorem State.tblFetch_ptr (b : Byte) : (s.tblFetch b).ptr = nextAddress s.aw s.ptr := rfl
@[simp] theorem State.tblFetch_cnt (b : Byte) : (s.tblFetch b).cnt = decCnt s.cnt := rfl
@[simp] theorem State.tblFetch_bit (b : Byte) : (s.tblFetch b).bit = 0 := rfl
@[simp] theorem State.tblFetch_aw (b : Byte) : (s.tblFetch b).aw = s.aw := rfl
@[simp] theorem State.tblFetch_mem (b : Byte) : (s.tblFetch b).mem = s.mem := rfl
@[simp] theorem State.tblFetch_inputs (b : Byte) : (s.tblFetch b).inputs = s.inputs := rfl
@[simp] theorem State.tblFetch_draws (b : Byte) : (s.tblFetch b).draws = s.draws := rfl

theorem State.accept_eq (data : Nat) (length : BitVec 16) :
    s.accept data length =
      { s with crc := 0x0000, busy := true, done := false, ptr := data % 2 ^ s.aw, cnt := length, bit := 0 } :=
  rfl

end Sys2Proof.Machine
end

