-- ==== Sys2Proof/Laws/Ops.lean ====
section
/-! SUPPORT. For each shared operation one lemma that says everything it can do, for the provers to cite instead of unfolding it; the step's inversion lemma among them. -/

namespace Sys2Proof.Machine

theorem andThen_eq_next {o : Host.Outcome State Fault Refusal}
    {f : State → Host.Outcome State Fault Refusal} {t : State} (h : andThen o f = .next t) :
    ∃ u, o = .next u ∧ f u = .next t := by
  cases o with
  | next u => exact ⟨u, rfl, h⟩
  | fault r => cases h
  | refused r => cases h

@[simp] theorem andThen_next (s : State) (f : State → Host.Outcome State Fault Refusal) :
    andThen (.next s) f = f s := rfl
@[simp] theorem andThen_fault (r : Fault) (f : State → Host.Outcome State Fault Refusal) :
    andThen (.fault r) f = .fault r := rfl
@[simp] theorem andThen_refused (r : Refusal) (f : State → Host.Outcome State Fault Refusal) :
    andThen (.refused r) f = .refused r := rfl

/-- A datapath operation always answers, and writes `CRC` alone. -/
theorem applyDp_eq (op : DpOp) (b : Byte) (s : State) :
    applyDp op b s = .next { s with crc := dp op b s.crc } := rfl

theorem exec_hold (s : State) : exec .hold s = .next s := rfl
theorem exec_clr (s : State) : exec .clr s = .next { s with crc := 0x0000 } := rfl
theorem exec_xorb (b : Byte) (s : State) :
    exec (.xorb b) s = .next { s with crc := s.crc ^^^ zext16 b } := rfl
theorem exec_shr (s : State) : exec .shr s = .next { s with crc := shr1 s.crc } := rfl

/-- `START` always answers: accepted when idle, without effect when busy. -/
theorem exec_start (data : Nat) (length : BitVec 16) (s : State) :
    exec (.start data length) s = if s.busy then .next s else .next (s.accept data length) := rfl

/-- No operation faults or is refused. -/
theorem exec_answers (i : Instr) (s : State) : ∃ t, exec i s = .next t := by
  cases i with
  | hold => exact ⟨_, rfl⟩
  | clr => exact ⟨_, rfl⟩
  | xorb b => exact ⟨_, rfl⟩
  | shr => exact ⟨_, rfl⟩
  | start data length =>
    rw [exec_start]
    split <;> exact ⟨_, rfl⟩

/-- The kind of a step and the condition of its row (R68), one case for each row. -/
theorem kind_cases (s : State) :
    (s.kind = .reset ∧ s.input.rst = true) ∨
    (s.kind = .accept ∧ s.input.rst = false ∧ s.busy = false ∧ s.input.start = true) ∨
    (s.kind = .idle ∧ s.input.rst = false ∧ s.busy = false ∧ s.input.start = false) ∨
    (s.kind = .shift ∧ s.input.rst = false ∧ s.busy = true ∧ s.bit ≠ 0) ∨
    (s.kind = .fetch ∧ s.input.rst = false ∧ s.busy = true ∧ s.bit = 0 ∧ s.cnt ≠ 0) ∨
    (s.kind = .finish ∧ s.input.rst = false ∧ s.busy = true ∧ s.bit = 0 ∧ s.cnt = 0) := by
  unfold State.kind
  by_cases hb : s.bit = 0 <;> by_cases hc : s.cnt = 0 <;>
    cases s.input.rst <;> cases s.busy <;> cases s.input.start <;> simp [hb, hc] <;> tauto

/-- The kind of a step depends on `rst`, `BUSY`, `BIT`, `CNT`, and where `BUSY = 0` on `start`. -/
theorem kind_congr {s u : State} (hr : s.input.rst = u.input.rst) (hb : s.busy = u.busy)
    (hs : s.busy = false → s.input.start = u.input.start) (hbit : s.bit = u.bit) (hcnt : s.cnt = u.cnt) :
    s.kind = u.kind := by
  unfold State.kind
  rw [hr, hb, hbit, hcnt]
  cases h : u.busy with
  | false => rw [hs (hb.trans h)]
  | true => simp

@[simp] theorem input_withInputs_cons (s : State) (i : HostInput) (is : List HostInput) :
    (s.withInputs (i :: is)).input = i := rfl
@[simp] theorem input_withInputs_nil (s : State) : (s.withInputs []).input = HostInput.quiet := rfl

/-- The descriptor on the input ports decodes to `START` of the ports' values. -/
theorem decode_descriptor (aw : Nat) (i : HostInput) :
    decodeDesc (i.descriptor aw) = .start (i.data % 2 ^ aw) i.length := by
  have hl : i.length.toNat < 2 ^ 16 := i.length.isLt
  have hd : i.data % 2 ^ aw < 2 ^ aw := Nat.mod_lt _ (by positivity)
  have hn : i.data % 2 ^ aw * 2 ^ 16 + i.length.toNat < 2 ^ (aw + 16) := by
    rw [pow_add]; nlinarith
  have ht : (i.descriptor aw).toNat = i.data % 2 ^ aw * 2 ^ 16 + i.length.toNat := by
    simp only [HostInput.descriptor, portAddress, BitVec.toNat_ofNat]
    exact Nat.mod_eq_of_lt hn
  simp only [decodeDesc, Instr.start.injEq, dataField, lengthField, ht]
  refine ⟨by omega, BitVec.eq_of_toNat_eq ?_⟩
  rw [BitVec.toNat_setWidth, ht]
  omega

/-- What one step is, by its kind: the whole step relation in one place. -/
theorem step_eq (s : State) : step s =
    match s.kind with
    | .reset => .next s.arrive.resetBlock
    | .accept => .next (s.arrive.accept s.input.data s.input.length)
    | .idle => .next s.arrive
    | .shift => .next { s.arrive with crc := shr1 s.crc, bit := decBit s.bit }
    | .fetch =>
      match s.fetchByte with
      | none => .fault (.stuckAtUndefinedAddress s.ptr)
      | some b => .next { s.arrive with
          crc := s.crc ^^^ zext16 b, ptr := nextAddress s.aw s.ptr, cnt := decCnt s.cnt, bit := 8 }
    | .finish => .next { s.arrive with busy := false, done := true } := by
  rcases kind_cases s with h | h | h | h | h | h <;> obtain ⟨hk, h⟩ := h
  · simp only [step, State.sequence, hk]
  · simp only [step, State.sequence, State.issuedWord, hk, decodeDp_clrWord, exec_clr, andThen_next,
      advance, decode_descriptor, exec_start]
    rw [if_neg (by simp [h.2.1])]
    simp only [State.accept_eq, State.arrive_aw, Nat.mod_mod]
  · simp only [step, State.sequence, State.issuedWord, hk, decodeDp_holdWord, exec_hold, andThen_next, advance]
  · simp only [step, State.sequence, State.issuedWord, hk, decodeDp_shrWord, exec_shr, andThen_next, advance]
    rfl
  · cases hb : s.fetchByte with
    | none => simp only [step, State.sequence, State.issuedWord, hk, hb]; rfl
    | some b =>
      simp only [step, State.sequence, State.issuedWord, hk, hb, Option.map_some, decodeDp_xorbWord,
        exec_xorb, andThen_next, advance]
      rfl
  · simp only [step, State.sequence, State.issuedWord, hk, decodeDp_holdWord, exec_hold, andThen_next, advance]
    rfl

/-- If a step answers a next state, it is one of the six kinds' (the inversion lemma of the step). -/
theorem step_cases {s t : State} (h : step s = .next t) :
    (s.kind = .reset ∧ t = s.arrive.resetBlock) ∨
    (s.kind = .accept ∧ t = s.arrive.accept s.input.data s.input.length) ∨
    (s.kind = .idle ∧ t = s.arrive) ∨
    (s.kind = .shift ∧ t = { s.arrive with crc := shr1 s.crc, bit := decBit s.bit }) ∨
    (s.kind = .fetch ∧ ∃ b, s.fetchByte = some b ∧ t = { s.arrive with
      crc := s.crc ^^^ zext16 b, ptr := nextAddress s.aw s.ptr, cnt := decCnt s.cnt, bit := 8 }) ∨
    (s.kind = .finish ∧ t = { s.arrive with busy := false, done := true }) := by
  rw [step_eq] at h
  cases hk : s.kind <;> rw [hk] at h <;> simp only [Host.Outcome.next.injEq] at h
  case fetch =>
    cases hb : s.fetchByte with
    | none => rw [hb] at h; cases h
    | some b =>
      rw [hb] at h
      simp only [Host.Outcome.next.injEq] at h
      simp [← h]
  all_goals simp [← h]

/-- Every step takes one entry of the coming inputs. -/
theorem step_inputs {s t : State} (h : step s = .next t) : t.inputs = s.inputs.tail := by
  rcases step_cases h with ⟨-, rfl⟩ | ⟨-, rfl⟩ | ⟨-, rfl⟩ | ⟨-, rfl⟩ | ⟨-, b, -, rfl⟩ | ⟨-, rfl⟩ <;> simp

/-- Every step keeps the address width. -/
theorem step_aw {s t : State} (h : step s = .next t) : t.aw = s.aw := by
  rcases step_cases h with ⟨-, rfl⟩ | ⟨-, rfl⟩ | ⟨-, rfl⟩ | ⟨-, rfl⟩ | ⟨-, b, -, rfl⟩ | ⟨-, rfl⟩ <;> simp

/-- The word issued, by the kind of the step (R51). -/
theorem issuedWord_eq (s : State) : s.issuedWord =
    match s.kind with
    | .reset => none
    | .accept => some (ctrlWord 0b01#2 0x00#8)
    | .idle => some (ctrlWord 0b00#2 0x00#8)
    | .shift => some (ctrlWord 0b11#2 0x00#8)
    | .fetch => s.fetchByte.map (ctrlWord 0b10#2)
    | .finish => some (ctrlWord 0b00#2 0x00#8) := rfl

/-- Steps one after the other: `m` of them, then `n`. -/
theorem stepN_add (m n : Nat) (s : State) : stepN (m + n) s = andThen (stepN m s) (stepN n) := by
  induction m generalizing s with
  | zero => simp [stepN]
  | succ m ih =>
    rw [Nat.add_right_comm]
    simp only [stepN]
    cases step s with
    | next t => exact ih t
    | fault r => rfl
    | refused r => rfl

theorem crcFrom_append (c : Word) (S U : List Byte) : crcFrom c (S ++ U) = crcFrom (crcFrom c S) U :=
  List.foldl_append ..

/-- Datapath programs one after the other. -/
theorem runDatapath_append (ws vs : List CtrlWord) (s : State) :
    runDatapath (ws ++ vs) s = andThen (runDatapath ws s) (runDatapath vs) := by
  induction ws generalizing s with
  | nil => rfl
  | cons w ws ih =>
    obtain ⟨t, ht⟩ := exec_answers (decodeDp w) s
    simp [runDatapath, ht, ih]

/-! ## Runs of a host and of several instances -/

/-- An instance that has a step takes it. -/
theorem stepOrStay_of_next {s t : State} (h : step s = .next t) : stepOrStay s = t := by
  simp [stepOrStay, nextState?, h]

/-- An instance that has no step keeps its registers, its inputs going by. -/
theorem stepOrStay_of_fault {s : State} {r : Fault} (h : step s = .fault r) :
    stepOrStay s = s.arrive := by
  simp [stepOrStay, nextState?, h]

/-- What one more step of a host's run answers when it answers a run. -/
theorem HostRun.oneStep_next {i : HostInput} {r u : HostRun} (h : r.oneStep i = .next u) :
    step (r.state.withInputs [i]) = .next u.state ∧ u.reads = r.reads ∧
      u.kinds = r.kinds ++ [(r.state.withInputs [i]).kind] := by
  unfold HostRun.oneStep at h
  split at h
  · rename_i t ht
    cases h
    exact ⟨ht, rfl, rfl⟩
  all_goals cases h

/-- A host program goes on from the run its first action makes. -/
theorem runHost_cons_of_next {fuel : Nat} {a : HostAction} {as : List HostAction} {r u : HostRun}
    (h : r.act fuel a = some (.next u)) : runHost fuel (a :: as) r = runHost fuel as u := by
  simp [runHost, h]

end Sys2Proof.Machine
end

