-- ==== Sys2Proof/Laws/PerInstr.lean ====
section
/-! SUPPORT. The family EncodingForm: an operation's word has its format's width, fits in it, and a control word of it is canonical (30_encoding.md R46, R50, R52). -/

namespace Sys2Proof.Laws

/-- The word of a well-formed operation has the width of its format and no bit above it, and it is a
canonical control word when the format is `DP`. -/
def EncodingForm.Statement (i : Instr) : Prop :=
  ∀ aw, i.wf aw = true →
    (encode aw i).width = i.format.width aw ∧ (encode aw i).bits < 2 ^ (encode aw i).width ∧
    (i.format = .dp → ∃ w, encodeDp i = some w ∧ (encode aw i).bits = w.toNat ∧ canonical w = true)

theorem EncodingForm.hold : EncodingForm.Statement .hold :=
  fun _ _ => ⟨rfl, by simp only [encode]; exact BitVec.isLt _, fun _ => ⟨_, rfl, rfl, by decide⟩⟩

theorem EncodingForm.clr : EncodingForm.Statement .clr :=
  fun _ _ => ⟨rfl, by simp only [encode]; exact BitVec.isLt _, fun _ => ⟨_, rfl, rfl, by decide⟩⟩

theorem EncodingForm.xorb (b : Byte) : EncodingForm.Statement (.xorb b) :=
  fun _ _ => ⟨rfl, by simp only [encode]; exact BitVec.isLt _, fun _ => ⟨_, rfl, rfl, by simp [canonical]⟩⟩

theorem EncodingForm.shr : EncodingForm.Statement .shr :=
  fun _ _ => ⟨rfl, by simp only [encode]; exact BitVec.isLt _, fun _ => ⟨_, rfl, rfl, by decide⟩⟩

theorem EncodingForm.start (data : Nat) (length : BitVec 16) :
    EncodingForm.Statement (.start data length) := by
  intro aw h
  refine ⟨rfl, ?_, fun h => by cases h⟩
  have hd : data < 2 ^ aw := by simpa [Instr.wf] using h
  have hl : length.toNat < 2 ^ 16 := length.isLt
  show data * 2 ^ 16 + length.toNat < 2 ^ (aw + 16)
  rw [pow_add]
  nlinarith

end Sys2Proof.Laws
end

