-- ==== Sys2Proof/Machine/Notation.lean ====
section
/-! DEFINITION. The spec's notation for operations (30_encoding.md R54): one operation a line, a mnemonic in capitals, operands separated by a comma, numbers in hexadecimal with 0x or in decimal, a comment from ; to the end of the line; and the pseudo-operation BYTE, which expands (R55). -/

namespace Sys2Proof.Machine

/-- A space or a tab (DESIGN CHOICE, log entry 16, as are the other details R54 leaves open). -/
def isBlank (c : Char) : Bool := c = ' ' || c = '\t'

/-- A text without the blanks at its two ends. -/
def trimBlanks (cs : List Char) : List Char :=
  ((cs.dropWhile isBlank).reverse.dropWhile isBlank).reverse

/-- The parts of a text between the characters `sep`. -/
def splitAtChar (sep : Char) : List Char → List (List Char)
  | [] => [[]]
  | c :: cs =>
    match splitAtChar sep cs with
    | [] => [[c]]
    | p :: ps => if c = sep then [] :: p :: ps else (c :: p) :: ps

/-- The digits of the notation's numbers, each at the place of its value. -/
def digitChars : List Char := "0123456789ABCDEF".toList

/-- The value of a digit: its place among the digits, a letter in either case. -/
def digitValue (c : Char) : Option Nat := digitChars.idxOf? c.toUpper

/-- The number a row of digits stands for, after the value `acc`. -/
def digitsValue (base : Nat) (acc : Nat) : List Char → Option Nat
  | [] => some acc
  | c :: cs =>
    match digitValue c with
    | some d => if d < base then digitsValue base (acc * base + d) cs else none
    | none => none

/-- A number: hexadecimal with `0x`, else decimal (R54). -/
def parseNumber : List Char → Option Nat
  | [] => none
  | '0' :: 'x' :: c :: cs => digitsValue 16 0 (c :: cs)
  | c :: cs => digitsValue 10 0 (c :: cs)

/-- The operands of a line, each a number. -/
def parseOperands (cs : List Char) : Option (List Nat) :=
  if trimBlanks cs = [] then some []
  else (splitAtChar ',' cs).mapM fun p => parseNumber (trimBlanks p)

/-- The operations a mnemonic and its operands stand for: one, or the nine of `BYTE b` (R55). An
operand must fit its field: `b` in 8 bits, `length` in 16 (R47, R48). -/
def parseOperation (mnemonic : List Char) (operands : List Nat) : Option (List Instr) :=
  match operands with
  | [] =>
    if mnemonic = "HOLD".toList then some [.hold]
    else if mnemonic = "CLR".toList then some [.clr]
    else if mnemonic = "SHR".toList then some [.shr]
    else none
  | [b] =>
    if 2 ^ 8 ≤ b then none
    else if mnemonic = "XORB".toList then some [.xorb (BitVec.ofNat 8 b)]
    else if mnemonic = "BYTE".toList then
      some (.xorb (BitVec.ofNat 8 b) :: List.replicate Config.bitsPerByte .shr)
    else none
  | [data, length] =>
    if 2 ^ 16 ≤ length then none
    else if mnemonic = "START".toList then some [.start data (BitVec.ofNat 16 length)]
    else none
  | _ => none

/-- The operations of one line; none on a blank line or a comment. -/
def parseLine (line : List Char) : Option (List Instr) :=
  let body := trimBlanks (line.takeWhile fun c => c != ';')
  if body = [] then some []
  else
    match parseOperands (body.dropWhile fun c => !isBlank c) with
    | some operands => parseOperation (body.takeWhile fun c => !isBlank c) operands
    | none => none

/-- The operations of a text of lines, in order. -/
def parseText (text : List Char) : Option (List Instr) :=
  ((splitAtChar '\n' text).mapM parseLine).map List.flatten

end Sys2Proof.Machine
end

