-- ==== Sys2Proof/Tests/Slice0.lean ====
section
/-! SUPPORT. The model's own tests: the WellFormed smoke, decoding by words written out from the spec's encodings, one step a time against the spec's examples (95_test_vectors.md), and for each statement with hypotheses a witness that meets them. -/

namespace Sys2Proof.Tests

open Sys2Proof.Machine

/-! ## WellFormed, decode, encode -/

/-- The one check of WellFormed: an address of 17 bits is refused at `AW = 16`, one of 16 is not. -/
theorem test_wf_smoke : Instr.wf 16 (.start 0x10000 9) = false ∧ Instr.wf 16 (.start 0xFFFF 9) = true := by decide

/-- 95_test_vectors.md 3.3, bit by bit from R47: `00`, `01`, `10`, `11` in bits 9 to 8. -/
theorem test_decode_hold : decodeDp 0b0000000000 = .hold ∧ decodeDp 0b0010100101 = .hold := by decide
theorem test_decode_clr : decodeDp 0b0100000000 = .clr ∧ decodeDp 0b0111111111 = .clr := by decide
theorem test_decode_xorb : decodeDp 0b1000110001 = .xorb 0x31 ∧ decodeDp 0b1011111111 = .xorb 0xFF := by decide
theorem test_decode_shr : decodeDp 0b1100000000 = .shr ∧ decodeDp 0b1111111111 = .shr := by decide

/-- 95_test_vectors.md 3.3: the descriptors at `AW = 16` and `AW = 32`. -/
theorem test_decode_start :
    decodeDesc (aw := 16) 0x10000009 = .start 0x1000 9 ∧ decodeDesc (aw := 16) 0xFFFF0000 = .start 0xFFFF 0 ∧
    decodeDesc (aw := 32) 0x200000000009 = .start 0x20000000 9 := by decide

/-- 95_test_vectors.md 3.3: the canonical words and the descriptors. -/
theorem test_encode :
    (encode 16 .hold).bits = 0x000 ∧ (encode 16 .clr).bits = 0x100 ∧ (encode 16 (.xorb 0x31)).bits = 0x231 ∧
    (encode 16 .shr).bits = 0x300 ∧ (encode 16 (.start 0x1000 9)).bits = 0x10000009 ∧
    (encode 32 (.start 0x20000000 9)).bits = 0x200000000009 := by decide

/-- A word of another width, and one with bits above its width, are refused. -/
theorem test_decode_refuses :
    (decode 16 ⟨.dp, 9, 0⟩).toOption = none ∧ (decode 16 ⟨.dp, 10, 1024⟩).toOption = none ∧
    (decode 16 ⟨.desc, 48, 9⟩).toOption = none := by decide

theorem test_table_word :
    decodeTableWord 16 0x0A5 = some .hold ∧ decodeTableWord 10 0x231 = some (.xorb 0x31) ∧
    decodeTableWord 32 0x10000009 = some (.start 0x1000 9) ∧
    decodeTableWord 48 0x200000000009 = some (.start 0x20000000 9) ∧ decodeTableWord 8 256 = some .clr := by decide

/-- R54, its own listing. -/
theorem test_notation :
    parseText "HOLD\nCLR\nXORB 0x31\nSHR\nSTART 0x1000, 9        ; data, length".toList =
      some [.hold, .clr, .xorb 0x31, .shr, .start 0x1000 9] := by decide

/-! ## Small states -/

/-- Idle with the result 0xBB3D (R69's example), the given inputs to come. -/
def idleWith (is : List HostInput) : State := { State.reset with crc := 0xBB3D, done := true, inputs := is }

/-- One step's inputs with `start = 1`. -/
def startInput (data : Nat) (length : BitVec 16) : HostInput :=
  { HostInput.quiet with start := true, data := data, length := length }

/-- One step's inputs with `rst = 1` and `start = 1`. -/
def resetInput : HostInput := { startInput 0x1000 9 with rst := true }

/-- R72's example, with `CNT` as given. -/
def fetching (cnt : BitVec 16) : State :=
  { State.reset with crc := 0xD4C1, busy := true, ptr := 0x1001, cnt := cnt, mem := [(0x1000, 0x31), (0x1001, 0x32)] }

/-- R71's example. -/
def shifting : State := { State.reset with crc := 0x0031, busy := true, ptr := 0x1001, cnt := 8, bit := 8 }

/-- R73's example. -/
def finishing : State := { State.reset with crc := 0xBB3D, busy := true }

/-- About to accept an operation of one byte, 0x31 at 0x1000 (program P4, first operation). -/
def oneByte : State := { State.reset with mem := [(0x1000, 0x31)], inputs := [startInput 0x1000 1] }

/-- Fields of the state after one step. -/
def after (s : State) : Option (Word × Bool × Bool × Nat × BitVec 16 × Fin 9) :=
  (nextState? (step s)).map fun t => (t.crc, t.busy, t.done, t.ptr, t.cnt, t.bit)

/-! ## One step -/

theorem test_hold : (nextState? (exec .hold (fetching 8))) = some (fetching 8) := by decide
theorem test_clr : (nextState? (exec .clr (idleWith []))).map State.crc = some 0x0000 := by decide
theorem test_xorb : dp .xorb 0x32 0xD4C1 = 0xD4F3 ∧ dp .xorb 0x80 0x0000 = 0x0080 := by decide
theorem test_shr : dp .shr 0 0x8001 = 0xE001 ∧ dp .shr 0 0x5555 = 0x8AAB ∧ dp .shr 0 0xBB3D = 0xFD9F := by decide

/-- R69's example. -/
theorem test_accept : after (idleWith [startInput 0x1000 9]) = some (0x0000, true, false, 0x1000, 9, 0) := by decide
/-- R74: no effect while busy. -/
theorem test_start_busy : nextState? (exec (.start 0x2000 1) shifting) = some shifting := by decide
/-- R70's example. -/
theorem test_idle : after (idleWith []) = some (0xBB3D, false, true, 0, 0, 0) := by decide
/-- R71's example. -/
theorem test_shift : after shifting = some (0xA019, true, false, 0x1001, 8, 7) := by decide
/-- R72's example. -/
theorem test_fetch : after (fetching 8) = some (0xD4F3, true, false, 0x1002, 7, 8) := by decide
/-- R72, the wrap at the top (95_test_vectors.md 3.7). -/
theorem test_fetch_wraps :
    after { fetching 2 with crc := 0, ptr := 0xFFFF, mem := [(0xFFFF, 0x01)] } = some (0x0001, true, false, 0, 1, 8) := by
  decide
/-- R73's example. -/
theorem test_finish : after finishing = some (0xBB3D, false, true, 0, 0, 0) := by decide
/-- Program P6 step 8: reset in the middle, `start = 1` with it. `PTR` is a free value. -/
theorem test_reset :
    (nextState? (step { shifting with inputs := [resetInput] })).map
      (fun t => (t.crc, t.busy, t.done, t.cnt, t.bit)) = some (0, false, false, 0, 0) := by decide
/-- Program P7 step 20: no step at an undefined address. -/
theorem test_stuck : step { fetching 1 with ptr := 0x1002 } = .fault (.stuckAtUndefinedAddress 0x1002) := by rfl

/-- The outputs of a FETCH and of an IDLE step (R67). -/
theorem test_outputs :
    (fetching 8).outputs = ⟨0xD4C1, true, false, true, 0x1001⟩ ∧ (idleWith []).outputs.memRe = false := by decide

/-- The host's write with a step is seen by its read. -/
theorem test_write_then_fetch :
    after { fetching 8 with inputs := [{ HostInput.quiet with writes := [(0x1001, 0xFF)] }] } =
      some (0xD43E, true, false, 0x1002, 7, 8) := by decide

/-- Each table row's word placed right after reset: the next step runs its operation. -/
theorem test_placed :
    (State.reset.withFetchWord 16 0x0A5).issuedWord = some 0x000 ∧
    (State.reset.withFetchWord 16 0x1FF).issuedWord = some 0x100 ∧
    (State.reset.withFetchWord 16 0x231).issuedWord = some 0x231 ∧
    (State.reset.withFetchWord 16 0x3FF).issuedWord = some 0x300 := by decide

theorem test_placed_xorb_runs :
    after (State.reset.withFetchWord 16 0x231) = some (0x0031, true, false, 1, 0, 8) := by decide

theorem test_placed_start_runs :
    after (State.reset.withFetchWord 32 0x10000009) = some (0, true, false, 0x1000, 9, 0) := by decide

/-! ## The checksum (95_test_vectors.md 3.4 to 3.6) -/

theorem test_check_value : crc16Arc [0x31, 0x32, 0x33, 0x34, 0x35, 0x36, 0x37, 0x38, 0x39] = 0xBB3D := by decide +kernel
theorem test_crc_vectors :
    crc16Arc [0x01, 0x00] = 0x9001 ∧ crc16Arc [0x55, 0xAA] = 0x2FBF ∧ crc16Arc [0x68, 0x65, 0x6C, 0x6C, 0x6F] = 0x34D2 := by decide +kernel
theorem test_tbl : tblStep 0xD4C1 0x32 = 0x4594 ∧ tblStep 0x3C9D 0x39 = 0xBB3D := by decide
theorem test_serial : serialFrom 0 (bitsLsbFirst 0x01) = 0xC0C1 ∧ serialFrom 0 (bitsLsbFirst 0x80) = 0xA001 := by decide

/-! ## Witnesses: for each statement with hypotheses, a case that meets them -/

theorem witness_issuedWord :
    (idleWith []).issuedWord = some 0x000 ∧ finishing.issuedWord = some 0x000 ∧ oneByte.issuedWord = some 0x100 ∧
    (fetching 8).issuedWord = some 0x232 ∧ shifting.issuedWord = some 0x300 := by decide

theorem witness_datapathFormat :
    Instr.hold.format = .dp ∧ Instr.clr.format = .dp ∧ (Instr.xorb 0xFF).format = .dp ∧ Instr.shr.format = .dp := by decide

theorem witness_xorbBits : (7 < 8) ∧ 8 ≤ 8 ∧ (fetching 8).kind = .fetch ∧ (fetching 8).fetchByte = some 0x32 := by decide

/-- Eight shifts after a FETCH, at the last of them; the FINISH after them with `CNT = 1`. -/
theorem witness_afterFetch :
    ∃ t, (fetching 1).kind = .fetch ∧ (fetching 1).cnt = 1 ∧ step (fetching 1) = .next t ∧ NoReset 8 t ∧ NoReset 9 t ∧ 7 < 8 :=
  ⟨_, by decide, by decide, rfl, by decide, by decide, by decide⟩

theorem witness_startAccepted :
    ∃ t, (idleWith [startInput 0xFFFF 0]).busy = false ∧ (idleWith [startInput 0xFFFF 0]).kind = .accept ∧
      (idleWith [startInput 0xFFFF 0]).input.length = 0 ∧ step (idleWith [startInput 0xFFFF 0]) = .next t ∧
      t.input.rst = false :=
  ⟨_, by decide, by decide, by decide, rfl, by decide⟩

theorem witness_startBusy :
    shifting.busy = true ∧ ∃ t, finishing.busy = true ∧ finishing.input.rst = false ∧ step finishing = .next t ∧ t.busy = false :=
  ⟨by decide, _, by decide, by decide, rfl, by decide⟩

theorem witness_backToBack :
    ∃ t, (finishing.withInputs [HostInput.quiet, startInput 0xFFFF 65535]).kind = .finish ∧
      step (finishing.withInputs [HostInput.quiet, startInput 0xFFFF 65535]) = .next t ∧
      t.input.rst = false ∧ t.input.start = true :=
  ⟨_, by decide, rfl, by decide, by decide⟩

theorem witness_operandsIgnored :
    ((idleWith []).withInputs [HostInput.quiet]).kind ≠ .accept ∧ (shifting.withInputs [HostInput.quiet]).kind ≠ .accept ∧
    resetInput.rst = true ∧ (idleWith []).busy = false ∧ HostInput.quiet.rst = false := by decide

theorem witness_idle : (idleWith []).kind = .idle ∧ (idleWith []).busy = false ∧ OnlyIdle 100 (idleWith [HostInput.quiet]) := by decide

theorem witness_shift :
    shifting.kind = .shift ∧ { shifting with bit := 1 }.kind = .shift ∧ (shifting.withInputs [startInput 0 0]).kind = .shift := by decide

theorem witness_fetch :
    (fetching 1).kind = .fetch ∧ (fetching 1).fetchByte = some 0x32 ∧ (fetching 65535).kind = .fetch ∧
    { fetching 1 with ptr := 0x1002 }.kind = .fetch ∧ { fetching 1 with ptr := 0x1002 }.fetchByte = none ∧
    ((fetching 1).withInputs [startInput 0 0]).kind = .fetch := by decide

theorem witness_fetchAtTheTop :
    ∃ t, { fetching 1 with ptr := 0xFFFF, mem := [(0xFFFF, 0x01)] }.kind = .fetch ∧
      step { fetching 1 with ptr := 0xFFFF, mem := [(0xFFFF, 0x01)] } = .next t ∧
      { fetching 1 with ptr := 0xFFFF, mem := [(0xFFFF, 0x01)] }.ptr = 2 ^ (fetching 1).aw - 1 :=
  ⟨_, by decide, rfl, by decide⟩

theorem witness_finish :
    finishing.kind = .finish ∧ (finishing.withInputs [startInput 0 0]).kind = .finish ∧ ∃ t, step finishing = .next t :=
  ⟨by decide, by decide, _, rfl⟩

/-- A state for each row of the kind table. -/
theorem witness_kinds :
    ((idleWith []).withInputs [resetInput]).kind = .reset ∧ oneByte.kind = .accept ∧ (idleWith []).kind = .idle ∧
    shifting.kind = .shift ∧ (fetching 1).kind = .fetch ∧ finishing.kind = .finish := by decide

theorem witness_reset :
    (shifting.withInputs [resetInput]).input.rst = true ∧ shifting.busy = true ∧
    (∀ i ∈ (shifting.withInputs [resetInput, resetInput]).inputs.take 2, i.rst = true) ∧ 0 < 2 ∧
    2 ≤ (shifting.withInputs [resetInput, resetInput]).inputs.length := by decide

theorem witness_idleAfterReset :
    ∃ t, (shifting.withInputs [resetInput, startInput 0 0]).input.rst = true ∧
      step (shifting.withInputs [resetInput, startInput 0 0]) = .next t ∧ t.input.rst = false ∧ t.input.start = true ∧
      t.busy = false ∧ OnlyIdle 0 t :=
  ⟨_, by decide, rfl, by decide, by decide, rfl, by decide⟩

/-- Without a start, any number of steps after the reset is idle. -/
theorem witness_idleRunAfterReset :
    ∃ t, step (shifting.withInputs [resetInput]) = .next t ∧ OnlyIdle 9 t :=
  ⟨_, rfl, by decide⟩

theorem witness_stuck : Stuck { fetching 1 with ptr := 0x1002 } ∧ resetInput.rst = true := by decide

/-- Program P7 shortened: one valid byte and a length of two. -/
theorem witness_stuckPastTheValidBytes :
    (oneByte.withInputs [startInput 0x1000 2]).kind = .accept ∧
    (oneByte.withInputs [startInput 0x1000 2]).mem.buffer 16 0x1000 1 = some [0x31] ∧
    (oneByte.withInputs [startInput 0x1000 2]).mem.read ((0x1000 + 1) % 2 ^ 16) = none ∧
    Undisturbed (9 * 1 + 2) 0x1000 (1 + 1) (oneByte.withInputs [startInput 0x1000 2]) := by decide

theorem witness_invariants :
    SequencerInv (fetching 8) ∧ AddressInv (fetching 8) ∧ (∃ t, step (fetching 8) = .next t) ∧
    ((fetching 8).withInputs [resetInput]).input.rst = true ∧ ∃ t, step ((fetching 8).withInputs [resetInput]) = .next t :=
  ⟨by decide, by decide, ⟨_, rfl⟩, by decide, _, rfl⟩

/-- Each register changes somewhere: the clauses of WritersOfEachRegister are not empty. -/
theorem witness_writers :
    (∃ t, step (fetching 8) = .next t ∧ t.crc ≠ 0xD4C1 ∧ t.ptr ≠ 0x1001 ∧ t.cnt ≠ 8 ∧ t.bit ≠ 0 ∧ (fetching 8).kind = .fetch) ∧
    (∃ t, step (idleWith [startInput 0 1]) = .next t ∧ t.busy = true ∧ t.done = false ∧ (idleWith []).done = true ∧ (idleWith []).busy = false) ∧
    (∃ t, step finishing = .next t ∧ t.busy = false ∧ t.done = true ∧ finishing.busy = true ∧ finishing.done = false) :=
  ⟨⟨_, rfl, by decide⟩, ⟨_, rfl, by decide⟩, ⟨_, rfl, by decide⟩⟩

theorem witness_noWrites :
    (∃ t, exec .shr shifting = .next t) ∧ NoWrites 9 oneByte ∧ ∃ t, stepN 9 oneByte = .next t :=
  ⟨⟨_, rfl⟩, by decide, _, rfl⟩

theorem witness_readSeesItsOwnStep :
    (fetching 8).ptr < 2 ^ (fetching 8).aw ∧
    ((fetching 8).withInputs [{ HostInput.quiet with writes := [(0x1001, 0xFF)] }]).kind = .fetch ∧
    ((fetching 8).withInputs [{ HostInput.quiet with writes := [(0x1001, 0xFF)] }]).input.writes = [] ++ [(0x1001, 0xFF)] ∧
    (fetching 8).kind = .fetch ∧ (fetching 8).mem.read 0x1001 = some 0x32 ∧
    (∀ c ∈ (fetching 8).input.writes, c.1 % 2 ^ (fetching 8).aw ≠ (fetching 8).ptr) := by decide

theorem witness_wellFormed :
    Instr.wf 1 .hold = true ∧ Instr.wf 1 .clr = true ∧ Instr.wf 1 (.xorb 0xFF) = true ∧ Instr.wf 1 .shr = true ∧
    Instr.wf 1 (.start 1 65535) = true ∧ Instr.wf 64 (.start (2 ^ 64 - 1) 0) = true := by decide

theorem witness_encodeDp :
    encodeDp .hold = some 0x000 ∧ encodeDp .clr = some 0x100 ∧ encodeDp (.xorb 0xFF) = some 0x2FF ∧
    encodeDp .shr = some 0x300 ∧ 8 ≤ 8 ∧ 15 < 16 := by decide

theorem witness_rawWords :
    (⟨.dp, 9, 0⟩ : RawWord).width ≠ Format.width 16 .dp ∧
    ((⟨.dp, 10, 1024⟩ : RawWord).width = Format.width 16 .dp ∧ 2 ^ 10 ≤ 1024) ∧
    ((⟨.desc, 32, 2 ^ 32 - 1⟩ : RawWord).width = Format.width 16 .desc ∧ 2 ^ 32 - 1 < 2 ^ 32) := by decide

theorem witness_acceptStep : ∃ t, oneByte.kind = .accept ∧ step oneByte = .next t := ⟨_, by decide, rfl⟩

/-- The window of an operation of one byte, of no byte; a buffer that ends at the top of the address
space, and one that wraps, which the premise refuses. -/
theorem witness_operation :
    (oneByte.kind = .accept ∧ oneByte.mem.buffer oneByte.aw oneByte.input.data oneByte.input.length.toNat = some [0x31] ∧
      InAddressSpace oneByte.aw oneByte.input.data oneByte.input.length.toNat ∧
      Undisturbed (9 * 1 + 2) oneByte.input.data 1 oneByte ∧ Undisturbed (1 + 2) oneByte.input.data 1 oneByte) ∧
    InAddressSpace 16 0xFFFF 1 ∧ ¬ InAddressSpace 16 0xFFFF 2 ∧ InAddressSpace 16 0xFFFF 0 ∧
    ((idleWith [startInput 0xFFFF 0]).kind = .accept ∧ (idleWith [startInput 0xFFFF 0]).input.length = 0 ∧
      NoReset 2 (idleWith [startInput 0xFFFF 0])) ∧
    (Memory.buffer [(0x0000, 0x00), (0xFFFF, 0x01)] 16 0xFFFF 2 = some [0x01, 0x00]) := by decide

/-- A window in which the host writes beside the buffer. -/
theorem witness_disturbedElsewhere :
    Undisturbed 11 0x1000 1
      (oneByte.withInputs [startInput 0x1000 1, { HostInput.quiet with writes := [(0x1001, 0xFF), (0x0FFF, 0x00)] }]) ∧
    1 ≤ [(0x31 : Byte)].length ∧ OnlyIdle 3 (idleWith []) := by decide

theorem witness_finishes :
    shifting.busy = true ∧ shifting.ptr < 2 ^ shifting.aw ∧
    (fetching 1).busy = true ∧ (fetching 1).mem.buffer (fetching 1).aw (fetching 1).ptr (fetching 1).cnt.toNat = some [0x32] ∧
    NoReset (9 * (fetching 1).cnt.toNat + (fetching 1).bit.val + 1) (fetching 1) ∧ (fetching 1).ptr < 2 ^ (fetching 1).aw ∧
    (fetching 1).input.rst = false ∧ (∃ t, step shifting = .next t) ∧ (∃ t, step (fetching 1) = .next t) :=
  ⟨by decide, by decide, by decide, by decide, by decide, by decide, by decide, ⟨_, rfl⟩, ⟨_, rfl⟩⟩

/-- Two states that differ in the block's registers alone, both about to accept; and the same byte at
another address. -/
theorem witness_independent :
    oneByte.kind = .accept ∧ { oneByte with crc := 0x1234, done := true, ptr := 7 }.kind = .accept ∧
    { oneByte with mem := [(0x2000, 0x31)], inputs := [startInput 0x2000 1] }.mem.buffer 16 0x2000 1 = some [0x31] ∧
    InAddressSpace 16 0x2000 1 ∧ InAddressSpace oneByte.aw oneByte.input.data oneByte.input.length.toNat ∧
    Undisturbed 11 0x2000 1 { oneByte with mem := [(0x2000, 0x31)], inputs := [startInput 0x2000 1] } := by decide

/-- Three jobs, the second a zero-length one with `data` outside the buffers, the third at the top. -/
theorem witness_hostProgram :
    ∀ j ∈ ([(0x1000, 1, [0x31]), (0x12345, 0, []), (0xFFFF, 1, [0x41])] : List (Nat × BitVec 16 × List Byte)),
      Memory.buffer [(0x1000, 0x31), (0xFFFF, 0x41)] 16 j.1 j.2.1.toNat = some j.2.2 ∧
      InAddressSpace 16 j.1 j.2.1.toNat ∧ 9 * j.2.1.toNat + 1 ≤ 10 := by decide

/-- What stands of the run of a host program with 12 steps for each wait. -/
def hostRun (as : List HostAction) : Option HostRun :=
  match runHost 12 as (HostRun.start oneByte) with
  | some (.next r) => some r
  | _ => none

/-- One job: the run is over, with `BYTE 0x31` from 0x0000 (R83's example) read. -/
theorem test_hostRunOver :
    ∃ r, hostRun [.reset, .start 0x1000 1, .wait, .read] = some r ∧ RunOver r.kinds r.state ∧ r.reads = [0xD4C1] :=
  ⟨_, rfl, by decide, by decide⟩

/-- `START` and then `RESET` in its window: `BUSY = 0` and nothing more to do, but the run is not over. -/
theorem test_hostRunLost :
    ∃ r, hostRun [.reset, .start 0x1000 1, .reset] = some r ∧ r.state.inputs = [] ∧ r.state.busy = false ∧
      ¬ RunOver r.kinds r.state :=
  ⟨_, rfl, by decide, by decide, by decide⟩

/-- A reset and an operation of no byte after it, seen three steps on. -/
theorem witness_finalState :
    ∃ t, (oneByte.withInputs [resetInput, startInput 0xFFFF 0]).input.rst = true ∧
      stepN 3 (oneByte.withInputs [resetInput, startInput 0xFFFF 0]) = .next t ∧
      RunOver (stepKinds 3 (oneByte.withInputs [resetInput, startInput 0xFFFF 0])) t ∧ t.done = true :=
  ⟨_, by decide, rfl, by decide, by decide⟩

/-- A stuck instance whose host resets it in the next step. -/
theorem witness_stuckInstance :
    Stuck { fetching 1 with ptr := 0x1002, inputs := [HostInput.quiet, resetInput] } ∧
    { fetching 1 with ptr := 0x1002, inputs := [HostInput.quiet, resetInput] }.arrive.input.rst = true := by decide

theorem witness_instances :
    commonMem oneByte.mem [oneByte, { fetching 1 with mem := oneByte.mem }] ∧
    (∀ s ∈ [oneByte, { fetching 1 with mem := oneByte.mem }], ∀ i ∈ s.inputs, i.writes = []) ∧
    [oneByte, { fetching 1 with mem := oneByte.mem }][1]? = some { fetching 1 with mem := oneByte.mem } := by
  refine ⟨fun s hs => ?_, by decide, by decide⟩
  rcases List.mem_cons.1 hs with rfl | hs
  · rfl
  · rw [List.mem_singleton.1 hs]

theorem witness_checksumLaws :
    ([0x61, 0x62, 0x63] : List Byte).length = ([0x78, 0x79, 0x7A] : List Byte).length ∧
    (8 < ([0x31, 0x32, 0x33, 0x34, 0x35, 0x36, 0x37, 0x38, 0x39] : List Byte).length ∧ 7 < 8) ∧
    (0 < 1 ∧ 1 < 32767 ∧ 32766 < 32767) := by decide

/-- Bits 0 and 15 of a buffer of two bytes flipped. -/
theorem witness_doubleBit :
    0 < 15 ∧ 15 < 8 * ([0x00, 0x00] : List Byte).length ∧
    ([0x01, 0x80] : List Byte).flatMap bitsLsbFirst = (List.range 16).map (fun n => decide (n = 0 ∨ n = 15)) := by decide

end Sys2Proof.Tests
end

section
/-! PROOFS of the family 00_scope.md: every step keeps the addresses legal (R7, R20, R31), and the parameters with the check value (R5). -/

namespace Sys2Proof.Machine

/-! ## What a step does to `MEM` and to `PTR` -/

/-- What an address port of `aw` bits carries is an address (log entry 10). -/
theorem portAddress_lt (aw n : Nat) : portAddress aw n < 2 ^ aw := Nat.mod_lt _ (by positivity)

/-- The increment of `PTR` wraps to an address (R72). -/
theorem nextAddress_lt (aw p : Nat) : nextAddress aw p < 2 ^ aw := Nat.mod_lt _ (by positivity)

/-- After a step of any kind `MEM` is what the host's writes of that step made of it (R34, R41). -/
theorem step_mem {s t : State} (h : step s = .next t) :
    t.mem = s.mem.writeAll s.aw s.input.writes := by
  rcases step_cases h with ⟨-, rfl⟩ | ⟨-, rfl⟩ | ⟨-, rfl⟩ | ⟨-, rfl⟩ | ⟨-, b, -, rfl⟩ | ⟨-, rfl⟩ <;> simp

/-- A RESET step draws `PTR` from the addresses, an ACCEPT step copies it from the port, a FETCH step
increments it modulo `2^AW`, and the other kinds leave it (R69 to R73, R111). -/
theorem step_ptr_lt {s t : State} (hptr : s.ptr < 2 ^ s.aw) (h : step s = .next t) :
    t.ptr < 2 ^ s.aw := by
  rcases step_cases h with ⟨-, rfl⟩ | ⟨-, rfl⟩ | ⟨-, rfl⟩ | ⟨-, rfl⟩ | ⟨-, b, -, rfl⟩ | ⟨-, rfl⟩
  · exact portAddress_lt ..
  · exact portAddress_lt ..
  · exact hptr
  · exact hptr
  · exact nextAddress_lt ..
  · exact hptr

/-- The address invariant is kept by every step: `PTR` by the kind of the step, `MEM` because the host
writes at `AW`-bit addresses into the canonical form. -/
theorem step_keeps_addressInv {s t : State} (hs : AddressInv s) (h : step s = .next t) : AddressInv t := by
  obtain ⟨haw, hptr, hwf, hlt⟩ := hs
  rw [AddressInv, step_aw h, step_mem h]
  exact ⟨haw, step_ptr_lt hptr h, Memory.writeAll_wf _ _ hwf, Memory.writeAll_lt _ _ hlt⟩

/-! ## The parameters of the algorithm -/

/-- `POLY_R` is `POLY` with its 16 bits reversed (R5). -/
theorem polyR_eq_poly_reversed : ∀ i < 16, Config.polyR.getLsbD i = Config.poly.getLsbD (15 - i) := by
  decide

/-- The register after each byte of "123456789", as 95_test_vectors.md 3.4 lists them: `BYTE` takes
each to the next. -/
theorem byteStep_checkSequence :
    byteStep 0x0000 0x31 = 0xD4C1 ∧ byteStep 0xD4C1 0x32 = 0x4594 ∧ byteStep 0x4594 0x33 = 0xBA04 ∧
    byteStep 0xBA04 0x34 = 0x14BA ∧ byteStep 0x14BA 0x35 = 0xA455 ∧ byteStep 0xA455 0x36 = 0x29E4 ∧
    byteStep 0x29E4 0x37 = 0x9D68 ∧ byteStep 0x9D68 0x38 = 0x3C9D ∧ byteStep 0x3C9D 0x39 = 0xBB3D := by
  decide

/-- The check value (R5): the fold over the nine bytes runs through the registers listed. -/
theorem crc16Arc_checkSequence :
    crc16Arc [0x31, 0x32, 0x33, 0x34, 0x35, 0x36, 0x37, 0x38, 0x39] = 0xBB3D := by
  simp only [crc16Arc, crcFrom, Config.init, List.foldl_cons, List.foldl_nil, byteStep_checkSequence]

end Sys2Proof.Machine

open Sys2Proof.Machine

/-- Settles O27: `AW` is written by no step, and every step keeps the address invariant. -/
theorem addressesStayLegal : Obligations.AddressesStayLegal := by
  intro s t hs h
  exact ⟨step_aw h, step_keeps_addressInv hs h⟩

/-- Settles O39: the constants by their values, and no final XOR changes the check value. -/
theorem parametersAndCheckValue : Obligations.ParametersAndCheckValue := by
  refine ⟨polyR_eq_poly_reversed, rfl, rfl, rfl, ?_⟩
  rw [crc16Arc_checkSequence]
  rfl

end

section
/-! PROOFS of the family 10_state.md: the sequencer's state stays legal (R23), who writes each register and flag (R14 to R22), which inputs a step reads (R25), every value of `CRC` is reached (R13), and the state after reset (R29). -/

namespace Sys2Proof.Machine

/-! ## The kind of a step, and the step, by the row of R68 -/

theorem kind_eq_reset_iff (s : State) : s.kind = .reset ↔ s.input.rst = true := by
  rcases kind_cases s with h | h | h | h | h | h <;> simp_all

theorem kind_eq_accept_iff (s : State) :
    s.kind = .accept ↔ s.input.rst = false ∧ s.busy = false ∧ s.input.start = true := by
  rcases kind_cases s with h | h | h | h | h | h <;> simp_all

theorem kind_eq_idle_iff (s : State) :
    s.kind = .idle ↔ s.input.rst = false ∧ s.busy = false ∧ s.input.start = false := by
  rcases kind_cases s with h | h | h | h | h | h <;> simp_all

theorem kind_eq_shift_iff (s : State) :
    s.kind = .shift ↔ s.input.rst = false ∧ s.busy = true ∧ s.bit ≠ 0 := by
  rcases kind_cases s with h | h | h | h | h | h <;> simp_all

theorem kind_eq_fetch_iff (s : State) :
    s.kind = .fetch ↔ s.input.rst = false ∧ s.busy = true ∧ s.bit = 0 ∧ s.cnt ≠ 0 := by
  rcases kind_cases s with h | h | h | h | h | h <;> simp_all

theorem kind_eq_finish_iff (s : State) :
    s.kind = .finish ↔ s.input.rst = false ∧ s.busy = true ∧ s.bit = 0 ∧ s.cnt = 0 := by
  rcases kind_cases s with h | h | h | h | h | h <;> simp_all

theorem step_of_reset {s : State} (h : s.kind = .reset) : step s = .next s.arrive.resetBlock := by
  rw [step_eq, h]

theorem step_of_accept {s : State} (h : s.kind = .accept) :
    step s = .next (s.arrive.accept s.input.data s.input.length) := by
  rw [step_eq, h]

theorem step_of_idle {s : State} (h : s.kind = .idle) : step s = .next s.arrive := by
  rw [step_eq, h]

/-! ## The sequencer's invariant -/

/-- While `BUSY = 1` the invariant asks only for `DONE = 0`. -/
theorem sequencerInv_of_busy {s : State} (hbusy : s.busy = true) (hdone : s.done = false) :
    SequencerInv s :=
  ⟨s.bit.is_le, fun _ => hdone, by simp [hbusy]⟩

/-- While `BUSY = 0` it asks only that the two counters are at 0. -/
theorem sequencerInv_of_not_busy {s : State} (hbusy : s.busy = false) (hbit : s.bit = 0)
    (hcnt : s.cnt = 0) : SequencerInv s :=
  ⟨s.bit.is_le, by simp [hbusy], fun _ => ⟨hbit, hcnt⟩⟩

theorem reset_sequencerInv : SequencerInv State.reset := sequencerInv_of_not_busy rfl rfl rfl

theorem resetBlock_sequencerInv (s : State) : SequencerInv s.resetBlock :=
  sequencerInv_of_not_busy rfl rfl rfl

/-- A RESET step leaves a legal state, whatever state it starts from. -/
theorem step_sequencerInv_of_rst {s t : State} (hrst : s.input.rst = true) (h : step s = .next t) :
    SequencerInv t := by
  rw [step_of_reset ((kind_eq_reset_iff s).2 hrst)] at h
  cases h
  exact resetBlock_sequencerInv _

/-- SHIFT and FETCH run while `BUSY = 1` and leave the flags; FINISH, which clears `BUSY`, is taken
only when both counters are at 0 (R68). -/
theorem step_keeps_sequencerInv {s t : State} (hs : SequencerInv s) (h : step s = .next t) :
    SequencerInv t := by
  obtain ⟨hbit, hdone, hidle⟩ := hs
  rcases step_cases h with ⟨-, rfl⟩ | ⟨-, rfl⟩ | ⟨-, rfl⟩ | ⟨hk, rfl⟩ | ⟨hk, b, -, rfl⟩ | ⟨hk, rfl⟩
  · exact resetBlock_sequencerInv _
  · exact sequencerInv_of_busy rfl rfl
  · exact ⟨hbit, hdone, hidle⟩
  · obtain ⟨-, hbusy, -⟩ := (kind_eq_shift_iff s).1 hk
    exact sequencerInv_of_busy hbusy (hdone hbusy)
  · obtain ⟨-, hbusy, -, -⟩ := (kind_eq_fetch_iff s).1 hk
    exact sequencerInv_of_busy hbusy (hdone hbusy)
  · obtain ⟨-, -, hbit0, hcnt0⟩ := (kind_eq_finish_iff s).1 hk
    exact sequencerInv_of_not_busy rfl hbit0 hcnt0

theorem reset_addressInv : AddressInv State.reset :=
  ⟨by decide, by decide, State.reset_mem_wf, by simp [State.reset]⟩

/-! ## The inputs a step reads -/

/-- Beside the kind it gives the step, an input matters outside an ACCEPT step by its writes alone. -/
theorem step_withInputs_congr {s : State} {i j : HostInput} {is : List HostInput}
    (hkind : (s.withInputs (j :: is)).kind = (s.withInputs (i :: is)).kind)
    (hwrites : j.writes = i.writes) (hna : (s.withInputs (i :: is)).kind ≠ .accept) :
    step (s.withInputs (j :: is)) = step (s.withInputs (i :: is)) := by
  have harrive : (s.withInputs (j :: is)).arrive = (s.withInputs (i :: is)).arrive := by
    simp [State.arrive, State.withInputs, State.input, hwrites]
  have hbyte : (s.withInputs (j :: is)).fetchByte = (s.withInputs (i :: is)).fetchByte := by
    rw [State.fetchByte, harrive]; rfl
  rw [step_eq, step_eq, hkind, harrive, hbyte]
  cases hk : (s.withInputs (i :: is)).kind with
  | accept => exact absurd hk hna
  | _ => rfl

theorem kind_withInputs_operands (s : State) (i : HostInput) (is : List HostInput) (data : Nat)
    (length : BitVec 16) :
    (s.withInputs ({ i with data := data, length := length } :: is)).kind =
      (s.withInputs (i :: is)).kind :=
  kind_congr rfl rfl (fun _ => rfl) rfl rfl

theorem kind_withInputs_start (s : State) (i : HostInput) (is : List HostInput) (v : Bool)
    (h : s.busy = true ∨ i.rst = true) :
    (s.withInputs ({ i with start := v } :: is)).kind = (s.withInputs (i :: is)).kind := by
  rcases h with hbusy | hrst
  · exact kind_congr rfl rfl (by simp [hbusy]) rfl rfl
  · rw [(kind_eq_reset_iff (s.withInputs (i :: is))).2 hrst, kind_eq_reset_iff]
    exact hrst

/-- `data` and `length` matter in no step but ACCEPT (R25). -/
theorem step_withInputs_operands (s : State) (i : HostInput) (is : List HostInput) (data : Nat)
    (length : BitVec 16) (hna : (s.withInputs (i :: is)).kind ≠ .accept) :
    step (s.withInputs ({ i with data := data, length := length } :: is)) =
      step (s.withInputs (i :: is)) :=
  step_withInputs_congr (i := i) (kind_withInputs_operands s i is data length) rfl hna

/-- `start` matters in no step with `BUSY = 1` or `rst = 1` (R25), which is not an ACCEPT step. -/
theorem step_withInputs_start (s : State) (i : HostInput) (is : List HostInput) (v : Bool)
    (h : s.busy = true ∨ i.rst = true) :
    step (s.withInputs ({ i with start := v } :: is)) = step (s.withInputs (i :: is)) := by
  have hna : (s.withInputs (i :: is)).kind ≠ .accept := by
    rw [Ne, kind_eq_accept_iff, input_withInputs_cons, State.withInputs_busy]
    rintro ⟨hrst, hbusy, -⟩
    simp [hrst, hbusy] at h
  exact step_withInputs_congr (i := i) (kind_withInputs_start s i is v h) rfl hna

/-- With `BUSY = 0` and `rst = 0`, `start` decides between an ACCEPT step, which sets `BUSY`, and an
IDLE step, which leaves it at 0. -/
theorem step_withInputs_start_ne (s : State) (i : HostInput) (is : List HostInput)
    (hbusy : s.busy = false) (hrst : i.rst = false) :
    step (s.withInputs ({ i with start := true } :: is)) ≠
      step (s.withInputs ({ i with start := false } :: is)) := by
  have haccept : (s.withInputs ({ i with start := true } :: is)).kind = .accept :=
    (kind_eq_accept_iff _).2 (by simp [hrst, hbusy])
  have hidle : (s.withInputs ({ i with start := false } :: is)).kind = .idle :=
    (kind_eq_idle_iff _).2 (by simp [hrst, hbusy])
  rw [step_of_accept haccept, step_of_idle hidle]
  intro heq
  have hflag := congrArg State.busy (Host.Outcome.next.inj heq)
  simp [hbusy] at hflag

/-! ## The decrement of `CNT` -/

/-- `CNT` falls by exactly one and never below zero, being non-zero where it is lowered (R21). -/
theorem decCnt_toNat {c : BitVec 16} (h : c ≠ 0) : (decCnt c).toNat + 1 = c.toNat := by
  unfold decCnt
  bv_omega

/-! ## `SHR` is linear and onto -/

theorem shr1_eq_xor (c : Word) :
    shr1 c = (c >>> 1) ^^^ if c.getLsbD 0 then Config.polyR else 0x0000#16 := by
  unfold shr1
  split <;> simp

/-- `SHR` is linear over xor (R64): the shift is, and so is the choice of the feedback by bit 0. -/
theorem shr1_xor (a c : Word) : shr1 (a ^^^ c) = shr1 a ^^^ shr1 c := by
  have hfeedback : (if Bool.xor (a.getLsbD 0) (c.getLsbD 0) then Config.polyR else 0x0000#16) =
      (if a.getLsbD 0 then Config.polyR else 0x0000#16) ^^^
        if c.getLsbD 0 then Config.polyR else 0x0000#16 := by
    cases a.getLsbD 0 <;> cases c.getLsbD 0 <;> simp
  rw [shr1_eq_xor, BitVec.getLsbD_xor, hfeedback, BitVec.ushiftRight_xor_distrib, shr1_eq_xor,
    shr1_eq_xor]
  ac_rfl

/-- The old register from the new one, by R64's rule: bit 15 of the new value is the bit shifted out. -/
def unshr1 (n : Word) : Word :=
  ((n ^^^ if n.getLsbD 15 then 0xA001#16 else 0x0000#16).extractLsb' 0 15 ++
    BitVec.ofBool (n.getLsbD 15)).setWidth 16

theorem unshr1_getLsbD_zero (n : Word) : (unshr1 n).getLsbD 0 = n.getLsbD 15 := by
  simp only [unshr1, BitVec.getLsbD_setWidth, BitVec.getLsbD_append, BitVec.getLsbD_ofBool]
  simp

theorem unshr1_ushiftRight (n : Word) :
    unshr1 n >>> 1 = n ^^^ if n.getLsbD 15 then Config.polyR else 0x0000#16 := by
  refine BitVec.eq_of_getLsbD_eq fun i hi => ?_
  simp only [unshr1, BitVec.getLsbD_ushiftRight, BitVec.getLsbD_setWidth, BitVec.getLsbD_append,
    BitVec.getLsbD_extractLsb', BitVec.getLsbD_xor]
  obtain rfl | hlt : i = 15 ∨ i < 15 := by omega
  · cases n.getLsbD 15 <;> decide
  · simp [show 1 + i < 16 by omega, hlt, Config.polyR]

/-- `SHR` undoes R64's inverse, so it is onto. -/
theorem shr1_unshr1 (n : Word) : shr1 (unshr1 n) = n := by
  rw [shr1_eq_xor, unshr1_getLsbD_zero, unshr1_ushiftRight, BitVec.xor_assoc, BitVec.xor_self,
    BitVec.xor_zero]

theorem shrN_add (m n : Nat) (c : Word) : shrN (m + n) c = shrN n (shrN m c) := by
  induction m generalizing c with
  | zero => rw [Nat.zero_add]; rfl
  | succ m ih => rw [Nat.add_right_comm]; exact ih (shr1 c)

theorem shrN_xor (n : Nat) (a c : Word) : shrN n (a ^^^ c) = shrN n a ^^^ shrN n c := by
  induction n generalizing a c with
  | zero => rfl
  | succ n ih => rw [shrN, shrN, shrN, shr1_xor, ih]

theorem shrN_surjective (n : Nat) : Function.Surjective (shrN n) := by
  induction n with
  | zero => exact Function.surjective_id
  | succ n ih => exact ih.comp (Function.RightInverse.surjective shr1_unshr1)

/-! ## The checksum of two bytes is sixteen shifts of one word -/

/-- On a byte that stands high in the register `SHR` is a plain shift: bit 0 is 0. -/
theorem shr1_zext16_shiftLeft (b : Byte) {n : Nat} (h : n < 8) :
    shr1 (zext16 b <<< (n + 1)) = zext16 b <<< n := by
  rw [shr1, if_neg (by simp)]
  refine BitVec.eq_of_getLsbD_eq fun i hi => ?_
  simp only [zext16, BitVec.getLsbD_ushiftRight, BitVec.getLsbD_shiftLeft, BitVec.getLsbD_setWidth]
  rw [show 1 + i - (n + 1) = i - n by omega]
  by_cases htop : i = 15
  · have hb : b.getLsbD (i - n) = false := BitVec.getLsbD_of_ge _ _ (by omega)
    simp [hb]
  · simp [show 1 + i < 16 by omega, show i < 16 by omega, show 1 + i < n + 1 ↔ i < n by omega]

theorem shrN_zext16_shiftLeft (b : Byte) {n : Nat} (h : n ≤ 8) :
    shrN n (zext16 b <<< n) = zext16 b := by
  induction n with
  | zero => simp [shrN]
  | succ n ih => rw [shrN, shr1_zext16_shiftLeft b (by omega), ih (by omega)]

/-- The second byte can be xored in before the first eight shifts, eight places higher: they bring it
down unchanged. -/
theorem crc16Arc_pair (a b : Byte) :
    crc16Arc [a, b] = shrN 16 (zext16 a ^^^ zext16 b <<< 8) := by
  have hb : shrN 8 (zext16 b <<< 8) = zext16 b := shrN_zext16_shiftLeft b (Nat.le_refl 8)
  calc crc16Arc [a, b] = shrN 8 (shrN 8 (0x0000#16 ^^^ zext16 a) ^^^ zext16 b) := rfl
    _ = shrN 8 (shrN 8 (zext16 a) ^^^ shrN 8 (zext16 b <<< 8)) := by rw [BitVec.zero_xor, hb]
    _ = shrN 8 (shrN 8 (zext16 a ^^^ zext16 b <<< 8)) := by rw [shrN_xor 8 (zext16 a)]
    _ = shrN 16 (zext16 a ^^^ zext16 b <<< 8) := (shrN_add 8 8 _).symm

theorem zext16_low_xor_high (w : Word) :
    zext16 (w.extractLsb' 0 8) ^^^ zext16 (w.extractLsb' 8 8) <<< 8 = w := by
  refine BitVec.eq_of_getLsbD_eq fun i hi => ?_
  by_cases hlow : i < 8
  · simp [zext16, hlow, hi]
  · simp [zext16, hlow, hi, show i - 8 < 8 by omega, show 8 + (i - 8) = i by omega]

end Sys2Proof.Machine

open Sys2Proof Sys2Proof.Machine

/-- Settles O26: the invariant of R23 at reset, after a RESET step from any state, and kept by a step
of each kind. -/
theorem sequencerStateLegal : Obligations.SequencerStateLegal :=
  ⟨reset_sequencerInv, fun _ _ => step_sequencerInv_of_rst, fun _ _ => step_keeps_sequencerInv⟩

/-- Settles O12: outside ACCEPT an input matters by the step's kind and the writes alone, and `start`
enters the kind only where `BUSY = 0` and `rst = 0`. -/
theorem operandsReadOnlyOnAccept : Obligations.OperandsReadOnlyOnAccept := by
  refine ⟨step_withInputs_operands, ?_, step_withInputs_start, step_withInputs_start_ne⟩
  intro s t hk h
  rw [step_of_accept hk] at h
  cases h
  exact ⟨rfl, rfl⟩

/-- Settles O29: for each kind of step, the registers it leaves are read off its next state; a FETCH
lowers a `CNT` that is not zero. -/
theorem writersOfEachRegister : Obligations.WritersOfEachRegister := by
  intro s t h
  rcases step_cases h with ⟨hk, rfl⟩ | ⟨hk, rfl⟩ | ⟨hk, rfl⟩ | ⟨hk, rfl⟩ | ⟨hk, b, -, rfl⟩ | ⟨hk, rfl⟩
  · simp [hk]
  · simp [hk]
  · simp [hk]
  · simp [hk]
  · obtain ⟨-, -, -, hcnt⟩ := (kind_eq_fetch_iff s).1 hk
    simp [hk, decCnt_toNat hcnt]
  · simp [hk]

/-- Settles O52: `SHR` is onto, and the checksum of two bytes is sixteen `SHR`s of the word they make. -/
theorem everyRegisterValueReached : Obligations.EveryRegisterValueReached := by
  intro c
  obtain ⟨w, rfl⟩ := shrN_surjective 16 c
  exact ⟨w.extractLsb' 0 8, w.extractLsb' 8 8, by rw [crc16Arc_pair, zext16_low_xor_high]⟩

/-- Settles O21: each field of the state after reset by its value. -/
theorem resetStateValues : Obligations.ResetStateValues :=
  ⟨rfl, rfl, rfl, rfl, rfl, rfl, rfl, rfl, rfl, fun _ => rfl⟩

/-- Settles O28: the state after reset meets the sequencer's invariant and the one on addresses. -/
theorem resetStateLegal : Obligations.ResetStateLegal := ⟨reset_sequencerInv, reset_addressInv⟩

end

section
/-! PROOFS of the family 20_memory.md: the block never writes memory (R34), a read sees the byte as of its own step (R41), and an operation reads exactly its buffer, in order (R33, R125). -/

namespace Sys2Proof.Machine

/-! ## One step, and a run that begins with it -/

theorem step_of_shift {s : State} (h : s.kind = .shift) :
    step s = .next { s.arrive with crc := shr1 s.crc, bit := decBit s.bit } := by
  rw [step_eq, h]

theorem step_of_fetch {s : State} {b : Byte} (h : s.kind = .fetch) (hb : s.fetchByte = some b) :
    step s = .next { s.arrive with
      crc := s.crc ^^^ zext16 b, ptr := nextAddress s.aw s.ptr, cnt := decCnt s.cnt, bit := 8 } := by
  simp only [step_eq, h, hb]

theorem step_of_finish {s : State} (h : s.kind = .finish) :
    step s = .next { s.arrive with busy := false, done := true } := by
  rw [step_eq, h]

theorem stepN_succ_of_step {s t : State} (n : Nat) (h : step s = .next t) :
    stepN (n + 1) s = stepN n t := by
  rw [stepN, h, andThen_next]

theorem stepN_aw {n : Nat} {s t : State} (h : stepN n s = .next t) : t.aw = s.aw := by
  induction n generalizing s with
  | zero => cases h; rfl
  | succ n ih =>
    obtain ⟨u, hu, ht⟩ := andThen_eq_next h
    rw [ih ht, step_aw hu]

theorem trace_succ_of_step {s t : State} (n : Nat) (h : step s = .next t) :
    trace (n + 1) s = s.record :: trace n t := by
  rw [trace, h]

theorem decBit_val {b : Fin 9} (h : b ≠ 0) : (decBit b).val + 1 = b.val := by
  simp only [decBit]
  omega

/-- What holds of the inputs of a run's steps holds of its first step's, a quiet one where the list
has ended. -/
theorem State.input_of_forall_take {P : HostInput → Prop} {s : State} {n : Nat}
    (hquiet : P HostInput.quiet) (h : ∀ i ∈ s.inputs.take (n + 1), P i) : P s.input := by
  unfold State.input
  cases hs : s.inputs with
  | nil => exact hquiet
  | cons i is => exact h i (by simp [hs])

/-- What holds of the inputs of a run's steps holds of those after the first step. -/
theorem forall_take_of_step {P : HostInput → Prop} {s t : State} {n : Nat} (h : step s = .next t)
    (hP : ∀ i ∈ s.inputs.take (n + 1), P i) : ∀ i ∈ t.inputs.take n, P i := by
  have htail : (s.inputs.take (n + 1)).tail = t.inputs.take n := by
    rw [step_inputs h, List.tail_take_eq_take_tail, Nat.add_sub_cancel]
  exact fun i hi => hP i (List.mem_of_mem_tail (htail ▸ hi))

/-! ## Memory over operations and steps -/

theorem exec_mem {i : Instr} {s t : State} (h : exec i s = .next t) : t.mem = s.mem := by
  cases i with
  | hold => rw [exec_hold] at h; cases h; rfl
  | clr => rw [exec_clr] at h; cases h; rfl
  | xorb b => rw [exec_xorb] at h; cases h; rfl
  | shr => rw [exec_shr] at h; cases h; rfl
  | start data length => rw [exec_start] at h; split at h <;> cases h <;> rfl

/-- Without a write of the host no number of steps changes memory (R34). -/
theorem stepN_mem {n : Nat} {s t : State} (hquiet : NoWrites n s) (h : stepN n s = .next t) :
    t.mem = s.mem := by
  induction n generalizing s with
  | zero => cases h; rfl
  | succ n ih =>
    obtain ⟨u, hu, ht⟩ := andThen_eq_next h
    have hnone : s.input.writes = [] :=
      State.input_of_forall_take (P := fun i => i.writes = []) rfl hquiet
    rw [ih (forall_take_of_step hu hquiet) ht, step_mem hu, hnone, Memory.writeAll]

/-- A write of the host never makes an address undefined (log entry 18). -/
theorem Memory.read_writeAll_isSome (aw : Nat) {m : Memory} {a : Nat} (ws : List Host.Cell)
    (h : (m.read a).isSome) : ((m.writeAll aw ws).read a).isSome := by
  induction ws generalizing m with
  | nil => exact h
  | cons c ws ih =>
    refine ih ?_
    by_cases ha : a = c.1 % 2 ^ aw
    · simp [ha, Memory.read_write_same]
    · rwa [Memory.read_write_other _ _ ha]

/-- A step leaves every defined address defined. -/
theorem step_read_isSome {s t : State} {a : Nat} (h : step s = .next t)
    (ha : (s.mem.read a).isSome) : (t.mem.read a).isSome := by
  rw [step_mem h]
  exact Memory.read_writeAll_isSome _ _ ha

/-- A buffer of one more byte is its first byte and the buffer of the rest (R30). -/
theorem Memory.buffer_succ {m : Memory} {aw d n : Nat} {S : List Byte}
    (h : m.buffer aw d (n + 1) = some S) :
    ∃ b S', m.read (d % 2 ^ aw) = some b ∧ m.buffer aw (d + 1) n = some S' ∧ S = b :: S' := by
  rw [Memory.buffer] at h
  split at h
  next b S' hb hS => exact ⟨b, S', hb, hS, (Option.some.inj h).symm⟩
  next => cases h

theorem Memory.buffer_length {m : Memory} {aw d n : Nat} {S : List Byte}
    (h : m.buffer aw d n = some S) : S.length = n := by
  induction n generalizing d S with
  | zero => cases h; rfl
  | succ n ih =>
    obtain ⟨b, S', -, hS, rfl⟩ := Memory.buffer_succ h
    simp [ih hS]

/-- A buffer has a value only where each of its addresses is defined. -/
theorem Memory.read_isSome_of_buffer {m : Memory} {aw d n : Nat} {S : List Byte}
    (h : m.buffer aw d n = some S) : ∀ k < n, (m.read ((d + k) % 2 ^ aw)).isSome := by
  induction n generalizing d S with
  | zero => simp
  | succ n ih =>
    obtain ⟨b, S', hb, hS, -⟩ := Memory.buffer_succ h
    intro k hk
    cases k with
    | zero => simp [hb]
    | succ k => simpa [Nat.add_assoc, Nat.add_comm 1] using ih hS k (by omega)

/-! ## The byte a FETCH step reads -/

/-- Where the host's last write of the step is at `PTR`, the step reads the byte written (log entries
7 and 18). -/
theorem fetchByte_of_write {s : State} {ws : List Host.Cell} {b : Byte} (hptr : s.ptr < 2 ^ s.aw)
    (hw : s.input.writes = ws ++ [(s.ptr, b)]) : s.fetchByte = some b := by
  have hread := Memory.read_writeAll_append s.aw s.mem ws s.ptr b
  rwa [Nat.mod_eq_of_lt hptr, ← hw] at hread

/-- Where the host writes elsewhere in the step, the step reads the byte that stood at `PTR`. -/
theorem fetchByte_of_no_write {s : State} (h : ∀ c ∈ s.input.writes, c.1 % 2 ^ s.aw ≠ s.ptr) :
    s.fetchByte = s.mem.read s.ptr :=
  Memory.read_writeAll_other s.aw s.input.writes h

theorem fetchByte_isSome {s : State} (h : (s.mem.read s.ptr).isSome) : s.fetchByte.isSome :=
  Memory.read_writeAll_isSome s.aw s.input.writes h

/-- A FETCH step XORs the byte it reads into `CRC` (R72). -/
theorem step_fetch_crc {s : State} {b : Byte} (hk : s.kind = .fetch) (hb : s.fetchByte = some b) :
    ∃ t, step s = .next t ∧ t.crc = dp .xorb b s.crc :=
  ⟨_, step_of_fetch hk hb, rfl⟩

/-! ## An operation in its window

The measure of R80, `9 * CNT + BIT`, falls by one in every FETCH and SHIFT step. It fixes both counters,
since `BIT` is at most 8, and so it says which steps of the window read. -/

/-- The block is inside an operation's window with the `L` bytes at `d` still to read: they are defined,
and no reset comes before the operation is over. -/
structure InWindow (s : State) (d L : Nat) : Prop where
  busy : s.busy = true
  ptr : s.ptr = d % 2 ^ s.aw
  cnt : s.cnt.toNat = L
  defined : ∀ k < L, (s.mem.read ((d + k) % 2 ^ s.aw)).isSome
  noReset : NoReset (9 * L + s.bit.val + 1) s

theorem InWindow.rst {s : State} {d L : Nat} (h : InWindow s d L) : s.input.rst = false :=
  State.input_of_forall_take (P := fun i => i.rst = false) rfl h.noReset

theorem InWindow.cnt_eq_zero_iff {s : State} {d L : Nat} (h : InWindow s d L) : s.cnt = 0 ↔ L = 0 := by
  rw [← h.cnt, BitVec.toNat_eq]
  rfl

/-- Inside the window a step reads exactly when no shift is owed and a byte is left. -/
theorem InWindow.kind_eq_fetch_iff {s : State} {d L : Nat} (h : InWindow s d L) :
    s.kind = .fetch ↔ s.bit.val = 0 ∧ 0 < L := by
  rw [Machine.kind_eq_fetch_iff, Ne, h.cnt_eq_zero_iff, Nat.pos_iff_ne_zero, Fin.val_eq_zero_iff]
  simp [h.rst, h.busy]

/-- The ACCEPT step opens the window of the operation on the ports (R69). -/
theorem step_accept_inWindow {s : State} (hk : s.kind = .accept)
    (hdef : ∀ k < s.input.length.toNat, (s.mem.read ((s.input.data + k) % 2 ^ s.aw)).isSome)
    (hreset : NoReset (9 * s.input.length.toNat + 2) s) :
    ∃ t, step s = .next t ∧ t.bit.val = 0 ∧ InWindow t s.input.data s.input.length.toNat := by
  have hs := step_of_accept hk
  exact ⟨_, hs, rfl, rfl, rfl, rfl, fun k hk => step_read_isSome hs (hdef k hk),
    forall_take_of_step hs hreset⟩

/-- A shift owed is taken, the bytes left staying as they are (R71). -/
theorem InWindow.shift {s : State} {d L : Nat} (h : InWindow s d L) (hbit : s.bit.val ≠ 0) :
    s.kind = .shift ∧ ∃ t, step s = .next t ∧ t.bit.val + 1 = s.bit.val ∧ InWindow t d L := by
  have hne : s.bit ≠ 0 := Fin.val_ne_zero_iff.1 hbit
  have hk : s.kind = .shift := (kind_eq_shift_iff s).2 ⟨h.rst, h.busy, hne⟩
  have hs := step_of_shift hk
  have hlow := decBit_val hne
  refine ⟨hk, _, hs, hlow, h.busy, h.ptr, h.cnt, fun k hk => step_read_isSome hs (h.defined k hk),
    forall_take_of_step hs ?_⟩
  rw [Nat.add_assoc (9 * L), hlow]
  exact h.noReset

/-- With no shift owed the next byte is read, eight shifts then being owed (R72). -/
theorem InWindow.fetch {s : State} {d L : Nat} (h : InWindow s d (L + 1)) (hbit : s.bit.val = 0) :
    s.kind = .fetch ∧ ∃ t, step s = .next t ∧ t.bit.val = 8 ∧ InWindow t (d + 1) L := by
  have hk : s.kind = .fetch := h.kind_eq_fetch_iff.2 ⟨hbit, L.succ_pos⟩
  have hcnt : s.cnt ≠ 0 := h.cnt_eq_zero_iff.not.2 L.succ_ne_zero
  have hfirst : (s.mem.read s.ptr).isSome := by simpa [h.ptr] using h.defined 0 (by omega)
  obtain ⟨b, hb⟩ := Option.isSome_iff_exists.1 (fetchByte_isSome hfirst)
  have hs := step_of_fetch hk hb
  refine ⟨hk, _, hs, rfl, h.busy, ?_, ?_, fun k hk => ?_, ?_⟩
  · simp [h.ptr, nextAddress]
  · have hdec := decCnt_toNat hcnt
    have hold := h.cnt
    show (decCnt s.cnt).toNat = L
    omega
  · rw [Nat.add_assoc, Nat.add_comm 1]
    exact step_read_isSome hs (h.defined (k + 1) (by omega))
  · have hreset := h.noReset
    rw [hbit] at hreset
    exact forall_take_of_step hs hreset

theorem InWindow.finish {s : State} {d : Nat} (h : InWindow s d 0) (hbit : s.bit.val = 0) :
    s.kind = .finish :=
  (kind_eq_finish_iff s).2 ⟨h.rst, h.busy, Fin.val_eq_zero_iff.1 hbit, h.cnt_eq_zero_iff.2 rfl⟩

/-- As many steps as the measure says exist, and each lowers it by one (R80); the bytes left always end
where the buffer ends. -/
theorem InWindow.stepN {n : Nat} {s : State} {d L : Nat} (h : InWindow s d L)
    (hn : n ≤ 9 * L + s.bit.val) :
    ∃ t d' L', stepN n s = .next t ∧ InWindow t d' L' ∧
      9 * L' + t.bit.val + n = 9 * L + s.bit.val ∧ d' + L' = d + L := by
  induction n generalizing s d L with
  | zero => exact ⟨s, d, L, rfl, h, rfl, rfl⟩
  | succ n ih =>
    by_cases hbit : s.bit.val = 0
    · obtain ⟨L, rfl⟩ : ∃ L', L = L' + 1 := Nat.exists_eq_succ_of_ne_zero (by omega)
      obtain ⟨-, u, hu, hubit, hw⟩ := h.fetch hbit
      obtain ⟨t, d', L', ht, hwt, hm, hend⟩ := ih hw (by omega)
      exact ⟨t, d', L', (stepN_succ_of_step n hu).trans ht, hwt, by omega, by omega⟩
    · obtain ⟨-, u, hu, hubit, hw⟩ := h.shift hbit
      obtain ⟨t, d', L', ht, hwt, hm, hend⟩ := ih hw (by omega)
      exact ⟨t, d', L', (stepN_succ_of_step n hu).trans ht, hwt, by omega, hend⟩

/-! ## The addresses read -/

theorem memRe_eq_true_iff (s : State) : s.outputs.memRe = true ↔ s.kind = .fetch :=
  decide_eq_true_iff

theorem readAddresses_cons_of_fetch {s : State} (h : s.kind = .fetch) (rs : List StepRecord) :
    readAddresses (s.record :: rs) = s.ptr :: readAddresses rs := by
  simp [readAddresses, State.record, h, State.fetchAddress]

theorem readAddresses_cons_of_not_fetch {s : State} (h : s.kind ≠ .fetch) (rs : List StepRecord) :
    readAddresses (s.record :: rs) = readAddresses rs := by
  simp [readAddresses, State.record, h]

/-- The rest of a window reads the bytes left, each once and in order (R33). -/
theorem InWindow.readAddresses_trace {m : Nat} {s : State} {d L : Nat} (h : InWindow s d L)
    (hm : 9 * L + s.bit.val = m) :
    readAddresses (trace (m + 1) s) = (List.range L).map fun i => (d + i) % 2 ^ s.aw := by
  induction m generalizing s d L with
  | zero =>
    obtain rfl : L = 0 := by omega
    have hk := h.finish (by omega)
    rw [trace_succ_of_step 0 (step_of_finish hk), readAddresses_cons_of_not_fetch (by simp [hk])]
    rfl
  | succ m ih =>
    by_cases hbit : s.bit.val = 0
    · obtain ⟨L, rfl⟩ : ∃ L', L = L' + 1 := Nat.exists_eq_succ_of_ne_zero (by omega)
      obtain ⟨hk, t, ht, htbit, hw⟩ := h.fetch hbit
      rw [trace_succ_of_step _ ht, readAddresses_cons_of_fetch hk, ih hw (by omega), step_aw ht, h.ptr,
        List.range_succ_eq_map]
      simp [Nat.add_assoc, Nat.add_comm 1]
    · obtain ⟨hk, t, ht, htbit, hw⟩ := h.shift hbit
      rw [trace_succ_of_step _ ht, readAddresses_cons_of_not_fetch (by simp [hk]), ih hw (by omega),
        step_aw ht]

end Sys2Proof.Machine

open Sys2Proof Sys2Proof.Machine

/-- Settles O30: no operation writes memory, a step leaves what the host's writes made of it, and so
does a run. -/
theorem blockNeverWritesMemory : Obligations.BlockNeverWritesMemory :=
  ⟨fun _ _ _ => exec_mem, fun _ _ => step_mem, fun _ _ _ => stepN_mem⟩

/-- Settles O54: past the ACCEPT step the measure of R80 places each step in the window, and a step
reads exactly where the measure is a positive multiple of 9. -/
theorem operationReadsItsBuffer : Obligations.OperationReadsItsBuffer := by
  intro s S hk hbuf hund
  have hlen : S.length = s.input.length.toNat := Memory.buffer_length hbuf
  rw [hlen] at hund ⊢
  obtain ⟨t, hst, hbit, hw⟩ :=
    step_accept_inWindow hk (Memory.read_isSome_of_buffer hbuf) fun i hi => (hund i hi).1
  refine ⟨?_, fun n hn => ?_⟩
  · rw [trace_succ_of_step _ hst, readAddresses_cons_of_not_fetch (by simp [hk]),
      hw.readAddresses_trace (by omega), step_aw hst]
  · cases n with
    | zero =>
      refine ⟨s, rfl, ?_, by omega⟩
      rw [memRe_eq_true_iff, hk]
      exact ⟨nofun, by omega⟩
    | succ n =>
      obtain ⟨u, d, L, hu, hwu, hm, hend⟩ := hw.stepN (n := n) (by omega)
      refine ⟨u, (stepN_succ_of_step n hst).trans hu, ?_, fun i hi hn => ?_⟩
      · rw [memRe_eq_true_iff, hwu.kind_eq_fetch_iff]
        constructor
        · rintro ⟨h0, hL⟩
          exact ⟨s.input.length.toNat - L, by omega, by omega⟩
        · rintro ⟨i, hi, hn⟩
          omega
      · obtain rfl : d = s.input.data + i := by omega
        show u.ptr = _
        rw [hwu.ptr, stepN_aw hu, step_aw hst]

/-- Settles O31: the byte at `PTR` once the host's writes of the step stand in memory is the one
written there last, or the one that stood there. -/
theorem readSeesItsOwnStep : Obligations.ReadSeesItsOwnStep := by
  refine ⟨fun s ws b hptr hk hw => ?_, fun s b hk hb hw => ?_⟩
  · exact step_fetch_crc hk (fetchByte_of_write hptr hw)
  · exact step_fetch_crc hk ((fetchByte_of_no_write hw).trans hb)

end

section
/-! PROOFS of the family 30_encoding.md: the two formats' fields, decode and encode agree (R50, R52, R53), what each kind of step issues (R51), and the words the decoder refuses (R46). -/

namespace Sys2Proof

/-! ## The fields of a control word (R47) -/

/-- A control word is known by its two fields. -/
theorem ctrlWord_eq_iff {op : BitVec 2} {b : Byte} {w : CtrlWord} :
    ctrlWord op b = w ↔ opField w = op ∧ byteField w = b := by
  constructor
  · rintro rfl
    exact ⟨opField_ctrlWord op b, byteField_ctrlWord op b⟩
  · rintro ⟨rfl, rfl⟩
    exact ctrlWord_fields w

theorem opField_toNat (w : CtrlWord) : (opField w).toNat = w.toNat / 256 := by
  simp only [opField, BitVec.extractLsb'_toNat, Nat.shiftRight_eq_div_pow]
  omega

theorem byteField_toNat (w : CtrlWord) : (byteField w).toNat = w.toNat % 256 := by
  simp [byteField]

/-- The `XORB` words are 0x200 + `b` (R51). -/
theorem ctrlWord_xorb_eq_add (b : Byte) : ctrlWord 0b10#2 b = 0x200#10 + b.setWidth 10 := by
  rw [ctrlWord_eq_iff, BitVec.toNat_eq, BitVec.toNat_eq, opField_toNat, byteField_toNat]
  have hb : b.toNat < 256 := b.isLt
  simp only [BitVec.toNat_add, BitVec.toNat_setWidth, BitVec.toNat_ofNat]
  omega

/-- The mask of the opcode map keeps `op` and clears `b` (R50). -/
theorem and_opMask (w : CtrlWord) : w &&& 0x300 = ctrlWord (opField w) 0x00#8 :=
  calc w &&& 0x300
    _ = ctrlWord (opField w) (byteField w) &&& ctrlWord 0b11#2 0x00#8 := by
      rw [ctrlWord_fields]; rfl
    _ = ctrlWord (opField w &&& 0b11#2) (byteField w &&& 0x00#8) := BitVec.and_append
    _ = ctrlWord (opField w) 0x00#8 := by
      rw [BitVec.and_zero, show (0b11#2) = BitVec.allOnes 2 from rfl, BitVec.and_allOnes]

theorem canonical_iff (w : CtrlWord) :
    canonical w = true ↔ opField w = 0b10#2 ∨ byteField w = 0x00#8 := by
  simp [canonical]

/-- The canonical words in numbers (R52): `XORB`'s 256, and the three whose `b` is 0x00. -/
theorem canonical_iff_toNat (w : CtrlWord) :
    canonical w = true ↔
      w = 0x000 ∨ w = 0x100 ∨ (0x200 ≤ w.toNat ∧ w.toNat ≤ 0x2FF) ∨ w = 0x300 := by
  simp only [canonical_iff, BitVec.toNat_eq, opField_toNat, byteField_toNat, BitVec.ofNat_eq_ofNat,
    BitVec.toNat_ofNat]
  have hw : w.toNat < 1024 := w.isLt
  omega

/-- `XORB`'s 256 words and three others, counted over all 1024 numbers (R52). -/
theorem canonical_count :
    ((List.range 1024).filter fun n => canonical (BitVec.ofNat 10 n)).length = 259 := by
  decide +kernel

/-! ## Control words there and back -/

theorem decode_ctrlWord (aw : Nat) (w : CtrlWord) :
    decode aw ⟨.dp, 10, w.toNat⟩ = .ok (decodeDp w) := by
  rw [decode_dp aw w.isLt, BitVec.ofNat_toNat, BitVec.setWidth_eq]

theorem decodeDp_of_encodeDp {i : Instr} {w : CtrlWord} (h : encodeDp i = some w) :
    decodeDp w = i := by
  cases i with
  | hold => cases h; exact decodeDp_holdWord _
  | clr => cases h; exact decodeDp_clrWord _
  | xorb b => cases h; exact decodeDp_xorbWord b
  | shr => cases h; exact decodeDp_shrWord _
  | start data length => cases h

/-- The encoder gives a word back exactly when it is canonical (R52): `XORB` keeps `b`, the other
operations write 0x00 there. -/
theorem encodeDp_decodeDp_iff (w : CtrlWord) :
    encodeDp (decodeDp w) = some w ↔ canonical w = true := by
  rw [canonical_iff]
  rcases decodeDp_cases w with ⟨hop, hd⟩ | ⟨hop, hd⟩ | ⟨hop, hd⟩ | ⟨hop, hd⟩ <;>
    simp [hd, encodeDp, ctrlWord_eq_iff, hop]

theorem canonical_of_encodeDp {i : Instr} {w : CtrlWord} (h : encodeDp i = some w) :
    canonical w = true :=
  (encodeDp_decodeDp_iff w).1 (by rw [decodeDp_of_encodeDp h, h])

theorem encode_of_encodeDp (aw : Nat) {i : Instr} {w : CtrlWord} (h : encodeDp i = some w) :
    encode aw i = ⟨.dp, 10, w.toNat⟩ := by
  cases i with
  | start data length => cases h
  | _ => cases h; rfl

theorem decode_encode_of_encodeDp (aw : Nat) {i : Instr} {w : CtrlWord} (h : encodeDp i = some w) :
    decode aw (encode aw i) = .ok i := by
  rw [encode_of_encodeDp aw h, decode_ctrlWord, decodeDp_of_encodeDp h]

/-! ## Descriptors there and back (R48) -/

theorem dataField_lt {aw : Nat} (d : BitVec (aw + 16)) : dataField d < 2 ^ aw :=
  Nat.div_lt_of_lt_mul (by rw [mul_comm, ← pow_add]; exact d.isLt)

theorem dataField_eq_extract {aw : Nat} (d : BitVec (aw + 16)) :
    dataField d = (d.extractLsb' 16 aw).toNat := by
  rw [BitVec.extractLsb'_toNat, Nat.shiftRight_eq_div_pow]
  exact (Nat.mod_eq_of_lt (dataField_lt d)).symm

theorem lengthField_eq_extract {aw : Nat} (d : BitVec (aw + 16)) :
    lengthField d = d.extractLsb' 0 16 :=
  BitVec.setWidth_eq_extractLsb' (by omega)

/-- A descriptor is its two fields, `data` in the high bits. -/
theorem descBits_fields {aw : Nat} (d : BitVec (aw + 16)) :
    descBits (dataField d) (lengthField d) = d.toNat := by
  rw [descBits, lengthField, BitVec.toNat_setWidth]
  exact Nat.div_add_mod' d.toNat (2 ^ 16)

theorem encode_decodeDesc {aw : Nat} (d : BitVec (aw + 16)) :
    encode aw (decodeDesc d) = ⟨.desc, aw + 16, d.toNat⟩ := by
  rw [← descBits_fields d]
  rfl

/-- An address that fits its port comes back from the descriptor, whose fields do not overlap. -/
theorem decode_encode_start {aw data : Nat} (length : BitVec 16) (h : data < 2 ^ aw) :
    decode aw (encode aw (.start data length)) = .ok (.start data length) := by
  obtain ⟨-, hbits, -⟩ := Laws.EncodingForm.start data length aw (decide_eq_true h)
  have hport := Machine.decode_descriptor aw
    { Machine.HostInput.quiet with data := data, length := length }
  simp only [Machine.HostInput.descriptor, Machine.portAddress, Nat.mod_eq_of_lt h] at hport
  exact (decode_desc aw hbits).trans (congrArg Except.ok hport)

theorem decode_encode {aw : Nat} {i : Instr} (h : i.wf aw = true) :
    decode aw (encode aw i) = .ok i := by
  cases i with
  | start data length => exact decode_encode_start length (of_decide_eq_true h)
  | _ => exact decode_encode_of_encodeDp aw rfl

/-! ## The words the decoder refuses (R46) -/

theorem decode_of_width_ne {aw : Nat} {w : RawWord} (h : w.width ≠ w.fmt.width aw) :
    decode aw w = .error (.wrongWidth w.width) :=
  if_pos h

theorem decode_of_bits_above {aw : Nat} {w : RawWord} (hwidth : w.width = w.fmt.width aw)
    (h : 2 ^ w.width ≤ w.bits) : decode aw w = .error .bitsAboveWidth := by
  rw [decode, if_neg (not_not_intro hwidth), if_pos h]

theorem decode_of_fits {aw : Nat} {w : RawWord} (hwidth : w.width = w.fmt.width aw)
    (h : w.bits < 2 ^ w.width) : ∃ i, decode aw w = .ok i := by
  obtain ⟨fmt, width, bits⟩ := w
  obtain rfl : width = fmt.width aw := hwidth
  cases fmt with
  | dp => exact ⟨_, decode_dp aw h⟩
  | desc => exact ⟨_, decode_desc aw h⟩

end Sys2Proof

namespace Sys2Proof.Machine

/-- The ACCEPT step is the `START` of the descriptor on the ports (R48, R69). -/
theorem exec_descriptor_of_accept {s t : State} (hk : s.kind = .accept) (h : step s = .next t) :
    exec (decodeDesc (s.input.descriptor s.aw)) s.arrive = .next t := by
  obtain ⟨-, hbusy, -⟩ := (kind_eq_accept_iff s).1 hk
  rw [decode_descriptor, exec_start, if_neg (by simp [hbusy]), ← h, step_of_accept hk]
  simp only [State.accept_eq, State.arrive_aw, Nat.mod_mod]

end Sys2Proof.Machine

open Sys2Proof Sys2Proof.Machine

/-- Settles O33: a datapath operation through its control word, `START` through its descriptor. -/
theorem decodeOfEncode : Obligations.DecodeOfEncode :=
  fun _ _ => decode_encode

/-- Settles O34: a control word is its two fields, and the encoder fixes `b` outside `XORB`. -/
theorem controlWordsAllDecode : Obligations.ControlWordsAllDecode :=
  ⟨fun w => ⟨_, decode_ctrlWord 1 w, rfl⟩, fun b c => by simp, encodeDp_decodeDp_iff,
    canonical_iff_toNat, canonical_count,
    fun _ _ h => ⟨canonical_of_encodeDp h, decodeDp_of_encodeDp h⟩,
    fun _ _ length => decode_encode_start length⟩

/-- Settles O35: masked, a word is its `op` field alone, which is what the decoder reads. -/
theorem opcodeMap : Obligations.OpcodeMap := by
  refine ⟨fun w => ?_, fun aw d => ⟨BitVec.and_zero, _, _, rfl⟩⟩
  rw [and_opMask]
  rcases decodeDp_cases w with ⟨hop, hd⟩ | ⟨hop, hd⟩ | ⟨hop, hd⟩ | ⟨hop, hd⟩ <;>
    simp [hd, hop, ctrlWord, byteField]

/-- Settles O36: the fields by arithmetic on the descriptor's number, and the ACCEPT step as the
`START` it decodes to. -/
theorem descriptorFields : Obligations.DescriptorFields := by
  refine ⟨fun aw d => ⟨?_, decide_eq_true (dataField_lt d), encode_decodeDesc d⟩, fun s => ?_,
    fun s t hk h => ⟨?_, exec_descriptor_of_accept hk h⟩⟩
  · rw [decodeDesc, dataField_eq_extract, lengthField_eq_extract]
  · rw [kind_eq_accept_iff]
    tauto
  · rw [Bool.eq_false_iff, Ne, memRe_eq_true_iff, hk]
    exact nofun

/-- Settles O18: the issued word by the kind of the step, as a number. -/
theorem issuedWordOfEachKind : Obligations.IssuedWordOfEachKind := by
  intro s
  refine ⟨?_, ?_, fun b hk hb => ?fetch, ?_, ?_, fun hk => ?reset⟩
  case fetch => simp only [issuedWord_eq, hk, hb, Option.map_some, ctrlWord_xorb_eq_add]
  case reset => rw [issuedWord_eq, hk]
  all_goals
    intro hk
    rw [issuedWord_eq, hk]
    rfl

/-- Settles O37: each word evaluates to the operation of the spec's table. -/
theorem wordsOfTheSpecDecode : Obligations.WordsOfTheSpecDecode :=
  ⟨rfl, rfl, rfl, rfl, rfl, rfl, rfl, rfl⟩

/-- Settles O38: the decoder's three branches on a raw word. -/
theorem decoderRefusesByName : Obligations.DecoderRefusesByName :=
  ⟨fun _ _ => decode_of_width_ne, fun _ _ => decode_of_bits_above, fun _ _ => decode_of_fits⟩

end

section
/-! PROOFS of the family 40_datapath.md: what HOLD, CLR, XORB and SHR do to the register and to nothing else, how they are encoded and when they are issued (R58 to R62, R66), and what follows for XORB and SHR as functions of the register (R63, R64). -/

namespace Sys2Proof.Machine

/-! ## A datapath operation is an application of `dp` (R58) -/

theorem exec_eq_applyDp {i : Instr} (h : i.format = .dp) : ∃ op b, ∀ s, exec i s = applyDp op b s := by
  cases i with
  | hold => exact ⟨.hold, 0x00, fun _ => rfl⟩
  | clr => exact ⟨.clr, 0x00, fun _ => rfl⟩
  | xorb b => exact ⟨.xorb, b, fun _ => rfl⟩
  | shr => exact ⟨.shr, 0x00, fun _ => rfl⟩
  | start data length => cases h

/-! ## The operation a step issues (R51, R68) -/

/-- What the issued word decodes to, by the kind of the step. -/
theorem decodeDp_issuedWord_cases {s : State} {w : CtrlWord} (h : s.issuedWord = some w) :
    (s.kind = .accept ∧ decodeDp w = .clr) ∨ (s.kind = .idle ∧ decodeDp w = .hold) ∨
    (s.kind = .shift ∧ decodeDp w = .shr) ∨ (s.kind = .finish ∧ decodeDp w = .hold) ∨
    (s.kind = .fetch ∧ ∃ b, s.fetchByte = some b ∧ decodeDp w = .xorb b) := by
  rw [issuedWord_eq] at h
  cases hk : s.kind <;> rw [hk] at h
  case reset => cases h
  case fetch =>
    obtain ⟨b, hb, rfl⟩ := Option.map_eq_some_iff.1 h
    simp [hb]
  all_goals
    cases h
    simp

theorem decodeDp_issuedWord_eq_hold_iff {s : State} {w : CtrlWord} (h : s.issuedWord = some w) :
    decodeDp w = .hold ↔ s.kind = .idle ∨ s.kind = .finish := by
  rcases decodeDp_issuedWord_cases h with ⟨hk, hd⟩ | ⟨hk, hd⟩ | ⟨hk, hd⟩ | ⟨hk, hd⟩ | ⟨hk, b, -, hd⟩ <;>
    simp [hk, hd]

theorem decodeDp_issuedWord_eq_clr_iff {s : State} {w : CtrlWord} (h : s.issuedWord = some w) :
    decodeDp w = .clr ↔ s.kind = .accept := by
  rcases decodeDp_issuedWord_cases h with ⟨hk, hd⟩ | ⟨hk, hd⟩ | ⟨hk, hd⟩ | ⟨hk, hd⟩ | ⟨hk, b, -, hd⟩ <;>
    simp [hk, hd]

theorem decodeDp_issuedWord_eq_xorb_iff {s : State} {w : CtrlWord} {b : Byte}
    (h : s.issuedWord = some w) :
    decodeDp w = .xorb b ↔ s.kind = .fetch ∧ s.fetchByte = some b := by
  rcases decodeDp_issuedWord_cases h with ⟨hk, hd⟩ | ⟨hk, hd⟩ | ⟨hk, hd⟩ | ⟨hk, hd⟩ | ⟨hk, c, hc, hd⟩
  case inr.inr.inr.inr => simp [hk, hd, hc]
  all_goals simp [hk, hd]

theorem decodeDp_issuedWord_eq_shr_iff {s : State} {w : CtrlWord} (h : s.issuedWord = some w) :
    decodeDp w = .shr ↔ s.kind = .shift := by
  rcases decodeDp_issuedWord_cases h with ⟨hk, hd⟩ | ⟨hk, hd⟩ | ⟨hk, hd⟩ | ⟨hk, hd⟩ | ⟨hk, b, -, hd⟩ <;>
    simp [hk, hd]

/-! ## The shifts owed after a FETCH -/

/-- A FETCH step that exists has read a byte (R31). -/
theorem fetchByte_of_step {s t : State} (hk : s.kind = .fetch) (h : step s = .next t) :
    ∃ b, s.fetchByte = some b := by
  rcases step_cases h with ⟨hk', -⟩ | ⟨hk', -⟩ | ⟨hk', -⟩ | ⟨hk', -⟩ | ⟨-, b, hb, -⟩ | ⟨hk', -⟩
  case inr.inr.inr.inr.inl => exact ⟨b, hb⟩
  all_goals cases hk.symm.trans hk'

/-- A FETCH step leaves eight shifts owed (R72). -/
theorem step_fetch_owes {s t : State} (hk : s.kind = .fetch) (h : step s = .next t) :
    t.busy = true ∧ t.bit = 8 := by
  obtain ⟨b, hb⟩ := fetchByte_of_step hk h
  obtain ⟨-, hbusy, -⟩ := (kind_eq_fetch_iff s).1 hk
  rw [step_of_fetch hk hb] at h
  cases h
  exact ⟨hbusy, rfl⟩

/-- While shifts are owed and no reset comes, the step is a SHIFT step (R68). -/
theorem kind_eq_shift_of_owed {s : State} {m : Nat} (hbusy : s.busy = true) (hbit : s.bit.val = m + 1)
    (hreset : NoReset (m + 1) s) : s.kind = .shift :=
  (kind_eq_shift_iff s).2 ⟨State.input_of_forall_take (P := fun i => i.rst = false) rfl hreset, hbusy,
    Fin.val_ne_zero_iff.1 (by omega)⟩

/-- Each SHIFT step takes one of the shifts owed, so the next one is of the same kind until none is. -/
theorem stepN_kind_shift {m n : Nat} {s : State} (hbusy : s.busy = true) (hbit : s.bit.val = m)
    (hreset : NoReset m s) (hn : n < m) : ∃ u, stepN n s = .next u ∧ u.kind = .shift := by
  induction n generalizing m s with
  | zero =>
    obtain ⟨m, rfl⟩ := Nat.exists_eq_add_of_lt hn
    exact ⟨s, rfl, kind_eq_shift_of_owed hbusy hbit hreset⟩
  | succ n ih =>
    obtain ⟨m, rfl⟩ := Nat.exists_eq_succ_of_ne_zero (Nat.ne_zero_of_lt hn)
    have hs := step_of_shift (kind_eq_shift_of_owed hbusy hbit hreset)
    have hlow : (decBit s.bit).val = m := by simp [decBit, hbit]
    rw [stepN_succ_of_step n hs]
    exact ih hbusy hlow (forall_take_of_step hs hreset) (by omega)

/-! ## `XORB` on the register (R61, R64) -/

theorem getLsbD_dp_xorb (b : Byte) (c : Word) (k : Nat) :
    (dp .xorb b c).getLsbD k = Bool.xor (c.getLsbD k) (decide (k < 16) && b.getLsbD k) := by
  simp [dp, zext16]

theorem dp_xorb_involutive (b : Byte) : Function.Involutive (dp .xorb b) := fun c => by
  simp only [dp, BitVec.xor_assoc, BitVec.xor_self, BitVec.xor_zero]

theorem dp_xorb_zero (c : Word) : dp .xorb 0x00 c = c := BitVec.xor_zero

/-- `XORB` is linear in the pair of byte and register. -/
theorem dp_xorb_xor (a b : Byte) (c d : Word) :
    dp .xorb (a ^^^ b) (c ^^^ d) = dp .xorb a c ^^^ dp .xorb b d := by
  simp only [dp, zext16, BitVec.setWidth_xor]
  ac_rfl

/-! ## `SHR` bit by bit, and as a bijection (R63, R64) -/

/-- Each new bit is the old one above it, with the old bit 0 fed back where the constant has a 1. -/
theorem getLsbD_shr1 (c : Word) (i : Nat) :
    (shr1 c).getLsbD i =
      Bool.xor (c.getLsbD (i + 1)) (c.getLsbD 0 && Config.polyR.getLsbD i) := by
  rw [shr1_eq_xor, BitVec.getLsbD_xor, BitVec.getLsbD_ushiftRight, Nat.add_comm 1]
  cases c.getLsbD 0 <;> simp

/-- The constant 0xA001 has exactly bits 15, 13 and 0 set (R63). -/
theorem getLsbD_polyR : ∀ i < 16, Config.polyR.getLsbD i = decide (i = 15 ∨ i = 13 ∨ i = 0) := by
  decide

theorem getLsbD_shr1_of_feedback (c : Word) {i : Nat} (h : i = 15 ∨ i = 13 ∨ i = 0) :
    (shr1 c).getLsbD i = Bool.xor (c.getLsbD (i + 1)) (c.getLsbD 0) := by
  rw [getLsbD_shr1, getLsbD_polyR i (by omega), decide_eq_true h, Bool.and_true]

theorem getLsbD_shr1_of_plain (c : Word) {i : Nat} (hi : i < 16) (h : ¬(i = 15 ∨ i = 13 ∨ i = 0)) :
    (shr1 c).getLsbD i = c.getLsbD (i + 1) := by
  rw [getLsbD_shr1, getLsbD_polyR i hi, decide_eq_false h, Bool.and_false, Bool.xor_false]

/-- The shift puts 0 in bit 15, so the new bit 15 is the bit fed back. -/
theorem getLsbD_shr1_top (c : Word) : (shr1 c).getLsbD 15 = c.getLsbD 0 := by
  rw [getLsbD_shr1_of_feedback c (.inl rfl), BitVec.getLsbD_of_ge c _ (Nat.le_refl 16), Bool.false_xor]

/-- `SHR` is onto, and the register has finitely many values. -/
theorem shr1_bijective : Function.Bijective shr1 :=
  (Function.RightInverse.surjective shr1_unshr1).bijective_of_finite

/-! ## The cycle of 0x0001 under `SHR` (R64)

Read with bit 15 as the constant term, a register is a polynomial over GF(2) of degree at most 15, and
`SHR` is multiplication by `x` modulo a polynomial of degree 16. The register after `n` steps from the
unit 0x8000 is the power `x^n`, so it is found by squarings in place of `n` steps. -/

/-- The first `n` terms of a product of polynomials: the coefficients of `w` choose among the shifts of
`v`. -/
def polyMulPartial (v w : Word) : Nat → Word
  | 0 => 0x0000#16
  | n + 1 => polyMulPartial v w n ^^^ if w.getLsbD (15 - n) then shrN n v else 0x0000#16

/-- The product of two registers as polynomials. -/
def polyMul (v w : Word) : Word := polyMulPartial v w 16

theorem shrN_zero (n : Nat) : shrN n 0x0000#16 = 0x0000#16 := by
  induction n with
  | zero => rfl
  | succ n ih => exact ih

theorem shrN_comm (m n : Nat) (c : Word) : shrN m (shrN n c) = shrN n (shrN m c) := by
  rw [← shrN_add, Nat.add_comm, shrN_add]

theorem shrN_polyMulPartial (m : Nat) (v w : Word) (n : Nat) :
    shrN m (polyMulPartial v w n) = polyMulPartial (shrN m v) w n := by
  induction n with
  | zero => exact shrN_zero m
  | succ n ih =>
    rw [polyMulPartial, polyMulPartial, shrN_xor, ih, apply_ite (shrN m), shrN_comm, shrN_zero]

/-- The first 16 powers of `x` are the single bits, from bit 15 down. -/
theorem shrN_unit_eq_twoPow : ∀ n < 16, shrN n 0x8000#16 = BitVec.twoPow 16 (15 - n) := by decide

theorem getLsbD_ite_twoPow (w : Word) {j : Nat} (hj : j < 16) (k : Nat) :
    (if w.getLsbD j then BitVec.twoPow 16 j else 0x0000#16).getLsbD k =
      (decide (j = k) && w.getLsbD k) := by
  by_cases hk : j = k
  · subst hk
    cases w.getLsbD j <;> simp [hj]
  · split <;> simp [hk]

/-- The first `n` terms of `1 * w` are the top `n` bits of `w`. -/
theorem getLsbD_polyMulPartial_unit (w : Word) {n : Nat} (hn : n ≤ 16) (k : Nat) :
    (polyMulPartial 0x8000#16 w n).getLsbD k = (decide (16 ≤ k + n) && w.getLsbD k) := by
  induction n with
  | zero => by_cases hk : 16 ≤ k <;> simp [polyMulPartial, hk]
  | succ n ih =>
    have htop : Bool.xor (decide (16 ≤ k + n)) (decide (15 - n = k)) = decide (16 ≤ k + (n + 1)) := by
      rw [Bool.eq_iff_iff]
      simp only [bne_iff_ne, ne_eq, decide_eq_decide, decide_eq_true_eq]
      omega
    rw [polyMulPartial, shrN_unit_eq_twoPow n (by omega), BitVec.getLsbD_xor, ih (by omega),
      getLsbD_ite_twoPow w (by omega), ← Bool.and_xor_distrib_right, htop]

theorem polyMul_unit (w : Word) : polyMul 0x8000#16 w = w := by
  refine BitVec.eq_of_getLsbD_eq fun k hk => ?_
  rw [polyMul, getLsbD_polyMulPartial_unit w le_rfl, decide_eq_true (by omega), Bool.true_and]

/-- `n` steps from any register multiply it by `x^n`. -/
theorem shrN_eq_polyMul (n : Nat) (w : Word) : shrN n w = polyMul (shrN n 0x8000#16) w := by
  rw [polyMul, ← shrN_polyMulPartial, ← polyMul, polyMul_unit]

/-- The power of `x` whose exponent has the binary digits `ds`, least significant first. -/
def polyPow : List Nat → Word
  | [] => 0x8000#16
  | d :: ds => shrN d (polyMul (polyPow ds) (polyPow ds))

theorem shrN_unit_ofDigits (ds : List Nat) : shrN (Nat.ofDigits 2 ds) 0x8000#16 = polyPow ds := by
  induction ds with
  | nil => rfl
  | cons d ds ih =>
    have hn : Nat.ofDigits 2 (d :: ds) = Nat.ofDigits 2 ds + Nat.ofDigits 2 ds + d := by
      rw [Nat.ofDigits_cons]
      omega
    rw [hn, shrN_add, shrN_add, ih, shrN_eq_polyMul _ (polyPow ds), ih, polyPow]

theorem shrN_unit_eq_polyPow (n : Nat) : shrN n 0x8000#16 = polyPow (Nat.digits 2 n) := by
  rw [← shrN_unit_ofDigits, Nat.ofDigits_digits]

theorem iterate_shr1 (n : Nat) (c : Word) : shr1^[n] c = shrN n c := by
  induction n generalizing c with
  | zero => rfl
  | succ n ih => exact ih (shr1 c)

theorem isPeriodicPt_shr1_iff {n : Nat} {c : Word} :
    Function.IsPeriodicPt shr1 n c ↔ shrN n c = c := by
  rw [← iterate_shr1]
  rfl

/-- A period none of whose quotients by a prime is a period is the least one. -/
theorem minimalPeriod_eq_of_prime_quotients {α : Type} {f : α → α} {x : α} {n : Nat}
    (h : Function.IsPeriodicPt f n x)
    (hq : ∀ p, p.Prime → p ∣ n → ¬ Function.IsPeriodicPt f (n / p) x) :
    Function.minimalPeriod f x = n := by
  obtain ⟨a, ha⟩ := h.minimalPeriod_dvd
  by_cases h1 : a = 1
  · rw [ha, h1, Nat.mul_one]
  · have hdvd : a.minFac * Function.minimalPeriod f x ∣ n := by
      rw [ha, Nat.mul_comm]
      exact Nat.mul_dvd_mul_left _ a.minFac_dvd
    exact absurd (Function.isPeriodicPt_iff_minimalPeriod_dvd.2 (Nat.dvd_div_of_mul_dvd hdvd))
      (hq _ (Nat.minFac_prime h1) (dvd_of_mul_right_dvd hdvd))

theorem prime_dvd_32767 {p : Nat} (hp : p.Prime) (h : p ∣ 32767) : p = 7 ∨ p = 31 ∨ p = 151 := by
  rwa [show 32767 = 7 * 31 * 151 by rfl, hp.dvd_mul, hp.dvd_mul,
    Nat.prime_dvd_prime_iff_eq hp (by norm_num), Nat.prime_dvd_prime_iff_eq hp (by norm_num),
    Nat.prime_dvd_prime_iff_eq hp (by norm_num), or_assoc] at h

/-- `x^32767` is 1, and none of `x^4681`, `x^1057` and `x^217` is. -/
theorem minimalPeriod_shr1_unit : Function.minimalPeriod shr1 0x8000#16 = 32767 := by
  refine minimalPeriod_eq_of_prime_quotients ?_ fun p hp hdvd => ?_
  · rw [isPeriodicPt_shr1_iff, shrN_unit_eq_polyPow]
    decide +kernel
  · rw [isPeriodicPt_shr1_iff, shrN_unit_eq_polyPow]
    rcases prime_dvd_32767 hp hdvd with rfl | rfl | rfl <;> decide +kernel

/-- 0x0001 is on the cycle of 0x8000, 15 steps on. -/
theorem minimalPeriod_shr1_one : Function.minimalPeriod shr1 0x0001#16 = 32767 := by
  have hmem : 0x8000#16 ∈ Function.periodicPts shr1 :=
    Function.minimalPeriod_pos_iff_mem_periodicPts.1 (by rw [minimalPeriod_shr1_unit]; decide)
  have hone : shr1^[15] 0x8000#16 = 0x0001#16 :=
    (iterate_shr1 15 _).trans (shrN_unit_eq_twoPow 15 (by decide))
  rw [← hone, Function.minimalPeriod_apply_iterate hmem, minimalPeriod_shr1_unit]

end Sys2Proof.Machine

open Sys2Proof Sys2Proof.Machine

/-- Settles O4: a FETCH leaves eight shifts owed, each of which a SHIFT step takes; the bit shifted out
comes back in bit 15. -/
theorem shrShiftsAndFeedsBack : Obligations.ShrShiftsAndFeedsBack := by
  refine ⟨exec_shr, decodeDp_shrWord, rfl, fun _ _ => decodeDp_issuedWord_eq_shr_iff,
    fun s t n hk h hreset hn => ?_, getLsbD_shr1_top, by decide⟩
  obtain ⟨hbusy, hbit⟩ := step_fetch_owes hk h
  exact stepN_kind_shift hbusy (congrArg Fin.val hbit) hreset hn

/-- Settles O5: the feedback enters bits 15, 13 and 0, and the other bits are shifted alone. -/
theorem shrBitByBit : Obligations.ShrBitByBit := fun c =>
  ⟨getLsbD_shr1_top c, getLsbD_shr1_of_plain c (by decide) (by decide),
    getLsbD_shr1_of_feedback c (by decide),
    fun _ _ _ => getLsbD_shr1_of_plain c (by omega) (by omega), getLsbD_shr1_of_feedback c (by decide)⟩

/-- Settles O6: `SHR` by R64's inverse and the finite count of values, `XORB b` by undoing itself. -/
theorem shrLinearBijection : Obligations.ShrLinearBijection :=
  ⟨shr1_bijective, shr1_unshr1, shr1_xor, rfl, fun b => (dp_xorb_involutive b).bijective, dp_xorb_xor⟩

/-- Settles O7: 32767 is the least period of 0x0001 under `SHR`. -/
theorem shrCycleOfOne : Obligations.ShrCycleOfOne := by
  refine ⟨isPeriodicPt_shr1_iff.1 ?_, fun k hpos hk h => ?_⟩
  · rw [← minimalPeriod_shr1_one]
    exact Function.isPeriodicPt_minimalPeriod shr1 _
  · rw [← minimalPeriod_shr1_one] at hk
    exact Function.not_isPeriodicPt_of_pos_of_lt_minimalPeriod hpos.ne' hk (isPeriodicPt_shr1_iff.2 h)

/-- Settles O1: `HOLD` answers the state itself; its word is issued in IDLE and FINISH. -/
theorem holdKeepsTheRegister : Obligations.HoldKeepsTheRegister :=
  ⟨exec_hold, decodeDp_holdWord, rfl, fun _ _ => decodeDp_issuedWord_eq_hold_iff⟩

/-- Settles O2: `CLR` writes 0x0000 to `CRC` alone; its word is issued in ACCEPT. -/
theorem clrClearsTheRegister : Obligations.ClrClearsTheRegister :=
  ⟨exec_clr, decodeDp_clrWord, rfl, fun _ _ => decodeDp_issuedWord_eq_clr_iff⟩

/-- Settles O3: the byte meets the low 8 bits and has none above them; the word is issued in FETCH. -/
theorem xorbMeetsTheLowByte : Obligations.XorbMeetsTheLowByte := by
  refine ⟨exec_xorb, fun b c k hk => ?_, fun b c k hk => ?_, decodeDp_xorbWord,
    fun b => congrArg some (ctrlWord_xorb_eq_add b), fun _ _ _ => decodeDp_issuedWord_eq_xorb_iff,
    dp_xorb_zero, dp_xorb_involutive, rfl, rfl, rfl, rfl⟩
  · rw [getLsbD_dp_xorb, decide_eq_true (by omega), Bool.true_and]
  · rw [getLsbD_dp_xorb, BitVec.getLsbD_of_ge b k hk, Bool.and_false, Bool.xor_false]

/-- Settles O8: `exec` of a datapath operation is `dp` on `CRC`, written to `CRC` alone. -/
theorem datapathFrame : Obligations.DatapathFrame := by
  intro i hi
  obtain ⟨op, b, h⟩ := exec_eq_applyDp hi
  exact ⟨dp op b, fun s => ⟨_, h s, rfl, rfl, rfl, rfl, rfl, rfl, rfl, rfl, rfl, fun _ => rfl⟩⟩

end

section
/-! PROOFS of the family 41_sequencer.md: the kind of a step and what each kind does (R67 to R74), a whole operation and its result (R78 to R81), and a host program over any number of operations (R77, R117, R126). -/

namespace Sys2Proof.Machine

/-! ## Runs in parts -/

theorem stepN_add_of_stepN {m : Nat} {s t : State} (n : Nat) (h : stepN m s = .next t) :
    stepN (m + n) s = stepN n t := by
  rw [stepN_add, h, andThen_next]

theorem trace_add_of_stepN {m : Nat} {s t : State} (n : Nat) (h : stepN m s = .next t) :
    trace (m + n) s = trace m s ++ trace n t := by
  induction m generalizing s with
  | zero => cases h; rw [Nat.zero_add]; rfl
  | succ m ih =>
    obtain ⟨u, hu, ht⟩ := andThen_eq_next h
    rw [Nat.add_right_comm, trace_succ_of_step _ hu, trace_succ_of_step _ hu, ih ht, List.cons_append]

theorem stepN_inputs {n : Nat} {s t : State} (h : stepN n s = .next t) :
    t.inputs = s.inputs.drop n := by
  induction n generalizing s with
  | zero => cases h; rfl
  | succ n ih =>
    obtain ⟨u, hu, ht⟩ := andThen_eq_next h
    rw [ih ht, step_inputs hu, List.drop_tail]

theorem stepN_keeps_sequencerInv {n : Nat} {s t : State} (hs : SequencerInv s)
    (h : stepN n s = .next t) : SequencerInv t := by
  induction n generalizing s with
  | zero => cases h; exact hs
  | succ n ih =>
    obtain ⟨u, hu, ht⟩ := andThen_eq_next h
    exact ih (step_keeps_sequencerInv hs hu) ht

/-! ## What a step does, by its kind -/

theorem memRe_eq_false {s : State} (h : s.kind ≠ .fetch) : s.outputs.memRe = false := by
  rwa [Bool.eq_false_iff, Ne, memRe_eq_true_iff]

/-- A FETCH of an undefined byte does not exist (R31, R72). -/
theorem step_of_fetch_undefined {s : State} (h : s.kind = .fetch) (hb : s.fetchByte = none) :
    step s = .fault (.stuckAtUndefinedAddress s.ptr) := by
  simp only [step_eq, h, hb]

theorem step_exists_of_not_fetch {s : State} (h : s.kind ≠ .fetch) : ∃ t, step s = .next t := by
  rw [step_eq]
  cases hk : s.kind with
  | fetch => exact absurd hk h
  | _ => exact ⟨_, rfl⟩

/-- FINISH delivers the register as it stands (R73). -/
theorem step_finish_registers {s t : State} (hk : s.kind = .finish) (h : step s = .next t) :
    t.done = true ∧ t.busy = false ∧ t.crc = s.crc := by
  rw [step_of_finish hk] at h
  cases h
  exact ⟨rfl, rfl, rfl⟩

/-- A step that issues a word runs what it decodes to and then what the sequencer does beside it (R51,
R68). -/
theorem step_of_issuedWord {s : State} {w : CtrlWord} (h : s.issuedWord = some w) :
    step s = andThen (exec (decodeDp w) s.arrive) (advance s.kind s.input) := by
  rw [step, State.sequence]
  cases hk : s.kind with
  | reset => rw [issuedWord_eq, hk] at h; cases h
  | _ => simp only [h]

/-! ## The record of a step, by its kind -/

theorem record_of_accept {s : State} (h : s.kind = .accept) :
    s.record = ⟨.accept, some (ctrlWord 0b01#2 0x00#8), none⟩ := by
  simp [State.record, issuedWord_eq, h]

theorem record_of_shift {s : State} (h : s.kind = .shift) :
    s.record = ⟨.shift, some (ctrlWord 0b11#2 0x00#8), none⟩ := by
  simp [State.record, issuedWord_eq, h]

theorem record_of_fetch {s : State} {b : Byte} (h : s.kind = .fetch) (hb : s.fetchByte = some b) :
    s.record = ⟨.fetch, some (ctrlWord 0b10#2 b), some s.ptr⟩ := by
  simp [State.record, issuedWord_eq, State.fetchAddress, h, hb]

theorem record_of_finish {s : State} (h : s.kind = .finish) :
    s.record = ⟨.finish, some (ctrlWord 0b00#2 0x00#8), none⟩ := by
  simp [State.record, issuedWord_eq, h]

/-! ## Inputs a busy block ignores (R71 to R74) -/

/-- With `BUSY = 1` neither `start` nor the operands matter. -/
theorem step_withInputs_of_busy {s : State} (hbusy : s.busy = true) (i : HostInput)
    (is : List HostInput) (v : Bool) (data : Nat) (length : BitVec 16) :
    step (s.withInputs ({ i with start := v, data := data, length := length } :: is)) =
      step (s.withInputs (i :: is)) := by
  have hna : (s.withInputs ({ i with start := v } :: is)).kind ≠ .accept := by
    rw [Ne, kind_eq_accept_iff, State.withInputs_busy, hbusy]
    rintro ⟨-, h, -⟩
    cases h
  rw [← step_withInputs_start s i is v (.inl hbusy)]
  exact step_withInputs_operands s _ is data length hna

/-! ## Idle steps (R70) -/

/-- Idle steps exist and leave the block's six registers as they are. -/
theorem stepN_of_onlyIdle {n : Nat} {s : State} (hbusy : s.busy = false) (hidle : OnlyIdle n s) :
    ∃ t, stepN n s = .next t ∧ t.crc = s.crc ∧ t.busy = false ∧ t.done = s.done ∧ t.ptr = s.ptr ∧
      t.cnt = s.cnt ∧ t.bit = s.bit := by
  induction n generalizing s with
  | zero => exact ⟨s, rfl, rfl, hbusy, rfl, rfl, rfl, rfl⟩
  | succ n ih =>
    obtain ⟨hrst, hstart⟩ : s.input.rst = false ∧ s.input.start = false :=
      State.input_of_forall_take (P := fun i => i.rst = false ∧ i.start = false) ⟨rfl, rfl⟩ hidle
    have hs := step_of_idle ((kind_eq_idle_iff s).2 ⟨hrst, hbusy, hstart⟩)
    rw [stepN_succ_of_step n hs]
    exact ih (s := s.arrive) hbusy (forall_take_of_step hs hidle)

/-- The block is idle with the result `c` delivered and `PTR` at `p`. -/
structure Delivered (s : State) (c : Word) (p : Nat) : Prop where
  crc : s.crc = c
  busy : s.busy = false
  done : s.done = true
  cnt : s.cnt = 0
  bit : s.bit = 0
  ptr : s.ptr = p

theorem Delivered.stepN_of_onlyIdle {s : State} {c : Word} {p n : Nat} (h : Delivered s c p)
    (hidle : OnlyIdle n s) : ∃ t, Machine.stepN n s = .next t ∧ Delivered t c p := by
  obtain ⟨t, ht, hcrc, hbusy, hdone, hptr, hcnt, hbit⟩ := Machine.stepN_of_onlyIdle h.busy hidle
  exact ⟨t, ht, hcrc.trans h.crc, hbusy, hdone.trans h.done, hcnt.trans h.cnt, hbit.trans h.bit,
    hptr.trans h.ptr⟩

/-! ## The shifts owed, and the measure of R80 -/

/-- While no reset comes, SHIFT steps take the shifts owed one by one (R71). -/
theorem stepN_shifts_owed {m n : Nat} {s : State} (hbusy : s.busy = true) (hbit : s.bit.val = m + n)
    (hreset : NoReset (m + n) s) :
    ∃ u, stepN n s = .next u ∧ u.busy = true ∧ u.bit.val = m ∧ NoReset m u := by
  induction n generalizing s with
  | zero => exact ⟨s, rfl, hbusy, hbit, hreset⟩
  | succ n ih =>
    have hs := step_of_shift (kind_eq_shift_of_owed hbusy hbit hreset)
    have hlow : (decBit s.bit).val = m + n := by simp [decBit, hbit, ← Nat.add_assoc]
    rw [stepN_succ_of_step n hs]
    exact ih hbusy hlow (forall_take_of_step hs hreset)

/-- A FETCH step takes one byte, worth 9, and owes 8 shifts; a SHIFT step takes one of them (R80). -/
theorem step_lowers_measure {s t : State} (hk : s.kind = .fetch ∨ s.kind = .shift)
    (h : step s = .next t) :
    9 * t.cnt.toNat + t.bit.val + 1 = 9 * s.cnt.toNat + s.bit.val := by
  rcases hk with hk | hk
  · obtain ⟨b, hb⟩ := fetchByte_of_step hk h
    obtain ⟨-, -, hbit, hcnt⟩ := (kind_eq_fetch_iff s).1 hk
    rw [step_of_fetch hk hb] at h
    cases h
    have hdec := decCnt_toNat hcnt
    show 9 * (decCnt s.cnt).toNat + 8 + 1 = 9 * s.cnt.toNat + s.bit.val
    simp only [hbit, Fin.val_zero]
    omega
  · obtain ⟨-, -, hbit⟩ := (kind_eq_shift_iff s).1 hk
    rw [step_of_shift hk] at h
    cases h
    have hdec := decBit_val hbit
    show 9 * s.cnt.toNat + (decBit s.bit).val + 1 = 9 * s.cnt.toNat + s.bit.val
    omega

/-- The window of an operation closes with its FINISH, after as many steps as the measure says and
one (R80). -/
theorem InWindow.finishes {s : State} {d L : Nat} (h : InWindow s d L) :
    ∃ t, Machine.stepN (9 * L + s.bit.val + 1) s = .next t ∧ t.busy = false ∧ t.done = true := by
  obtain ⟨u, d', L', hu, hw, hm, -⟩ := h.stepN (Nat.le_refl _)
  obtain rfl : L' = 0 := by omega
  rw [stepN_add_of_stepN 1 hu, stepN_succ_of_step 0 (step_of_finish (hw.finish (by omega)))]
  exact ⟨_, rfl, rfl, rfl⟩

theorem InWindow.stepN_busy {n : Nat} {s : State} {d L : Nat} (h : InWindow s d L)
    (hn : n ≤ 9 * L + s.bit.val) : ∃ u, Machine.stepN n s = .next u ∧ u.busy = true := by
  obtain ⟨u, d', L', hu, hw, -⟩ := h.stepN hn
  exact ⟨u, hu, hw.busy⟩

/-- After the FETCH of the last byte the window is open with no byte left. -/
theorem step_fetch_last_inWindow {s t : State} (hk : s.kind = .fetch) (hcnt : s.cnt = 1)
    (h : step s = .next t) (hreset : NoReset 9 t) : InWindow t (s.ptr + 1) 0 := by
  obtain ⟨b, hb⟩ := fetchByte_of_step hk h
  obtain ⟨hbusy, hbit⟩ := step_fetch_owes hk h
  rw [step_of_fetch hk hb] at h
  cases h
  exact ⟨hbusy, rfl, by simp [decCnt, hcnt], nofun, hreset⟩

/-! ## An operation over the bytes of its buffer

The window of `InWindow` with the bytes themselves: the host leaves them alone (R40), so each FETCH reads
the next one, and its eight SHIFTs complete the `BYTE` of R83. -/

/-- Writes at none of a buffer's addresses leave the buffer as it was. -/
theorem Memory.buffer_writeAll_other {m : Memory} {aw d n : Nat} {ws : List Host.Cell}
    (h : ∀ c ∈ ws, ∀ k < n, c.1 % 2 ^ aw ≠ (d + k) % 2 ^ aw) :
    (m.writeAll aw ws).buffer aw d n = m.buffer aw d n := by
  induction n generalizing d with
  | zero => rfl
  | succ n ih =>
    have hhead : (m.writeAll aw ws).read (d % 2 ^ aw) = m.read (d % 2 ^ aw) :=
      Memory.read_writeAll_other aw ws fun c hc => h c hc 0 n.succ_pos
    have hrest := ih (d := d + 1) fun c hc k hk => by
      rw [Nat.add_assoc, Nat.add_comm 1]
      exact h c hc (k + 1) (Nat.succ_lt_succ hk)
    rw [Memory.buffer, Memory.buffer, hhead, hrest]

/-- The writes that come with the next step leave an undisturbed buffer alone. -/
theorem writes_elsewhere_of_undisturbed {s : State} {n d L : Nat} (h : Undisturbed (n + 1) d L s) :
    ∀ c ∈ s.input.writes, ∀ k < L, c.1 % 2 ^ s.aw ≠ (d + k) % 2 ^ s.aw :=
  (State.input_of_forall_take
    (P := fun i => i.rst = false ∧ ∀ c ∈ i.writes, ∀ k < L, c.1 % 2 ^ s.aw ≠ (d + k) % 2 ^ s.aw)
    ⟨rfl, nofun⟩ h).2

theorem undisturbed_of_step {s t : State} {n d L : Nat} (hs : step s = .next t)
    (h : Undisturbed (n + 1) d L s) : Undisturbed n d L t := by
  rw [Undisturbed, step_aw hs]
  exact forall_take_of_step hs h

/-- A buffer that nothing disturbs is undisturbed beyond its first byte. -/
theorem undisturbed_tail {s : State} {n d L : Nat} (h : Undisturbed n d (L + 1) s) :
    Undisturbed n (d + 1) L s := by
  intro i hi
  obtain ⟨hrst, helse⟩ := h i hi
  refine ⟨hrst, fun c hc k hk => ?_⟩
  rw [Nat.add_assoc, Nat.add_comm 1]
  exact helse c hc (k + 1) (Nat.succ_lt_succ hk)

/-- A step leaves an undisturbed buffer as it was (R40). -/
theorem buffer_of_step {s t : State} {n d L : Nat} (hs : step s = .next t)
    (h : Undisturbed (n + 1) d L s) : t.mem.buffer t.aw d L = s.mem.buffer s.aw d L := by
  rw [step_mem hs, step_aw hs, Memory.buffer_writeAll_other (writes_elsewhere_of_undisturbed h)]

/-- The block is in an operation's window with the bytes `S` at `d` still to read, and nothing disturbs
them before the operation is over. -/
structure BytesLeft (s : State) (d : Nat) (S : List Byte) : Prop extends InWindow s d S.length where
  buffer : s.mem.buffer s.aw d S.length = some S
  undisturbed : Undisturbed (9 * S.length + s.bit.val + 1) d S.length s

/-- The ACCEPT step opens the window over the buffer on the ports, with `CRC` at 0x0000 (R69). -/
theorem step_accept_bytesLeft {s : State} {S : List Byte} (hk : s.kind = .accept)
    (hbuf : s.mem.buffer s.aw s.input.data s.input.length.toNat = some S)
    (hund : Undisturbed (9 * S.length + 2) s.input.data S.length s) :
    ∃ t, step s = .next t ∧ t.crc = 0x0000 ∧ t.bit.val = 0 ∧ BytesLeft t s.input.data S := by
  have hlen : S.length = s.input.length.toNat := Memory.buffer_length hbuf
  obtain ⟨t, hs, hbit, hw⟩ := step_accept_inWindow hk (Memory.read_isSome_of_buffer hbuf) fun i hi =>
    (hund i (by rwa [hlen])).1
  rw [← hlen] at hw hbuf
  refine ⟨t, hs, ?_, hbit, hw, (buffer_of_step hs hund).trans hbuf, ?_⟩
  · rw [step_of_accept hk] at hs
    cases hs
    rfl
  · rw [hbit]
    exact undisturbed_of_step hs hund

/-- A shift owed is applied to `CRC`, the bytes left staying as they are (R71). -/
theorem BytesLeft.shift {s : State} {d : Nat} {S : List Byte} (h : BytesLeft s d S)
    (hbit : s.bit.val ≠ 0) :
    s.kind = .shift ∧ ∃ t, step s = .next t ∧ t.crc = shr1 s.crc ∧ t.bit.val + 1 = s.bit.val ∧
      BytesLeft t d S := by
  obtain ⟨hk, t, hs, hlow, hw⟩ := h.toInWindow.shift hbit
  refine ⟨hk, t, hs, ?_, hlow, hw, (buffer_of_step hs h.undisturbed).trans h.buffer, ?_⟩
  · rw [step_of_shift hk] at hs
    cases hs
    rfl
  · rw [Nat.add_assoc (9 * _), hlow]
    exact undisturbed_of_step hs h.undisturbed

/-- All shifts owed, one after the other. -/
theorem BytesLeft.shifts {n : Nat} {s : State} {d : Nat} {S : List Byte} (h : BytesLeft s d S)
    (hbit : s.bit.val = n) :
    ∃ t, Machine.stepN n s = .next t ∧
      trace n s = List.replicate n ⟨.shift, some (ctrlWord 0b11#2 0x00#8), none⟩ ∧
      t.crc = shrN n s.crc ∧ t.bit.val = 0 ∧ BytesLeft t d S := by
  induction n generalizing s with
  | zero => exact ⟨s, rfl, rfl, rfl, hbit, h⟩
  | succ n ih =>
    obtain ⟨hk, u, hs, hcrc, hlow, hu⟩ := h.shift (by omega)
    obtain ⟨t, ht, htr, htcrc, htbit, hw⟩ := ih hu (by omega)
    refine ⟨t, (stepN_succ_of_step n hs).trans ht, ?_, ?_, htbit, hw⟩
    · rw [trace_succ_of_step n hs, record_of_shift hk, htr, List.replicate_succ]
    · rw [htcrc, hcrc, shrN]

/-- With no shift owed the next byte is XORed into `CRC`, eight shifts then being owed (R72). -/
theorem BytesLeft.fetch {s : State} {d : Nat} {b : Byte} {S : List Byte} (h : BytesLeft s d (b :: S))
    (hbit : s.bit.val = 0) :
    s.record = ⟨.fetch, some (ctrlWord 0b10#2 b), some (d % 2 ^ s.aw)⟩ ∧
      ∃ t, step s = .next t ∧ t.crc = s.crc ^^^ zext16 b ∧ t.bit.val = 8 ∧ BytesLeft t (d + 1) S := by
  obtain ⟨hk, t, hs, ht8, hw⟩ := h.toInWindow.fetch hbit
  obtain ⟨_, _, hread, -, hcons⟩ := Memory.buffer_succ h.buffer
  obtain ⟨rfl, rfl⟩ := List.cons.inj hcons
  obtain ⟨_, _, -, hrest, hcons'⟩ := Memory.buffer_succ ((buffer_of_step hs h.undisturbed).trans h.buffer)
  obtain ⟨rfl, rfl⟩ := List.cons.inj hcons'
  have hb : s.fetchByte = some b := by
    rw [fetchByte_of_no_write, h.ptr, hread]
    intro c hc
    rw [h.ptr]
    exact writes_elsewhere_of_undisturbed h.undisturbed c hc 0 (Nat.succ_pos _)
  refine ⟨by rw [record_of_fetch hk hb, h.ptr], t, hs, ?_, ht8, hw, hrest, ?_⟩
  · rw [step_of_fetch hk hb] at hs
    cases hs
    rfl
  · have hund := h.undisturbed
    rw [hbit] at hund
    rw [ht8]
    exact undisturbed_tail (undisturbed_of_step hs hund)

/-- The FETCH of a byte and its eight SHIFTs are `BYTE` of it (R83). -/
theorem BytesLeft.byte {s : State} {d : Nat} {b : Byte} {S : List Byte} (h : BytesLeft s d (b :: S))
    (hbit : s.bit.val = 0) :
    ∃ t, Machine.stepN 9 s = .next t ∧ trace 9 s = byteRecords s.aw d b ∧ t.crc = byteStep s.crc b ∧
      t.bit.val = 0 ∧ BytesLeft t (d + 1) S := by
  obtain ⟨hrec, u, hs, hcrc, hu8, hu⟩ := h.fetch hbit
  obtain ⟨t, ht, htr, htcrc, htbit, hw⟩ := hu.shifts hu8
  refine ⟨t, (stepN_succ_of_step 8 hs).trans ht, ?_, ?_, htbit, hw⟩
  · rw [trace_succ_of_step 8 hs, hrec, htr]
    rfl
  · rw [htcrc, hcrc]
    rfl

/-- Nine steps for each of the first bytes `S` fold them into `CRC`; the bytes `U` are left. -/
theorem BytesLeft.bytes {s : State} {d : Nat} {S U : List Byte} (h : BytesLeft s d (S ++ U))
    (hbit : s.bit.val = 0) :
    ∃ t, Machine.stepN (9 * S.length) s = .next t ∧
      trace (9 * S.length) s = bytesRecords s.aw d S ∧ t.crc = crcFrom s.crc S ∧ t.bit.val = 0 ∧
      BytesLeft t (d + S.length) U := by
  induction S generalizing s d with
  | nil => exact ⟨s, rfl, rfl, rfl, hbit, h⟩
  | cons b S ih =>
    obtain ⟨u, hu, hutr, hucrc, hubit, hw⟩ := h.byte hbit
    obtain ⟨t, ht, httr, htcrc, htbit, hwt⟩ := ih hw hubit
    have hsteps : 9 * (b :: S).length = 9 + 9 * S.length := by rw [List.length_cons]; omega
    have hend : d + (b :: S).length = d + 1 + S.length := by rw [List.length_cons]; omega
    rw [hsteps, hend]
    refine ⟨t, (stepN_add_of_stepN _ hu).trans ht, ?_, ?_, htbit, hwt⟩
    · rw [trace_add_of_stepN _ hu, hutr, httr, stepN_aw hu, bytesRecords]
    · rw [htcrc, hucrc]
      rfl

/-- With no byte left and no shift owed, FINISH delivers `CRC` (R73). -/
theorem BytesLeft.finish {s : State} {d : Nat} (h : BytesLeft s d []) (hbit : s.bit.val = 0) :
    s.kind = .finish ∧ ∃ t, step s = .next t ∧ Delivered t s.crc (d % 2 ^ s.aw) := by
  have hk := h.toInWindow.finish hbit
  obtain ⟨-, -, hbit0, hcnt0⟩ := (kind_eq_finish_iff s).1 hk
  exact ⟨hk, _, step_of_finish hk, rfl, rfl, rfl, hcnt0, hbit0, h.ptr⟩

/-- The run of an operation from its ACCEPT step past its first bytes `S` (R78). -/
theorem stepN_operation_bytes {s : State} {S U : List Byte} (hk : s.kind = .accept)
    (hbuf : s.mem.buffer s.aw s.input.data s.input.length.toNat = some (S ++ U))
    (hund : Undisturbed (9 * (S ++ U).length + 2) s.input.data (S ++ U).length s) :
    ∃ t, stepN (9 * S.length + 1) s = .next t ∧
      trace (9 * S.length + 1) s =
        ⟨.accept, some (ctrlWord 0b01#2 0x00#8), none⟩ :: bytesRecords s.aw s.input.data S ∧
      t.crc = crc16Arc S ∧ t.bit.val = 0 ∧ BytesLeft t (s.input.data + S.length) U := by
  obtain ⟨u, hs, hcrc, hbit, hw⟩ := step_accept_bytesLeft hk hbuf hund
  obtain ⟨t, ht, htr, htcrc, htbit, hwt⟩ := hw.bytes hbit
  refine ⟨t, (stepN_succ_of_step _ hs).trans ht, ?_, ?_, htbit, hwt⟩
  · rw [trace_succ_of_step _ hs, record_of_accept hk, htr, step_aw hs]
  · rw [htcrc, hcrc]
    rfl

/-- A whole operation over a defined and undisturbed buffer: its records, and the checksum it delivers
(R78). -/
theorem stepN_operation {s : State} {S : List Byte} (hk : s.kind = .accept)
    (hbuf : s.mem.buffer s.aw s.input.data s.input.length.toNat = some S)
    (hund : Undisturbed (9 * S.length + 2) s.input.data S.length s) :
    trace (9 * S.length + 2) s = operationRecords s.aw s.input.data S ∧
    ∃ t, stepN (9 * S.length + 2) s = .next t ∧
      Delivered t (crc16Arc S) ((s.input.data + S.length) % 2 ^ s.aw) := by
  rw [← List.append_nil S] at hbuf hund
  obtain ⟨u, hu, hutr, hucrc, hubit, hw⟩ := stepN_operation_bytes hk hbuf hund
  obtain ⟨hfin, t, hs, hdel⟩ := hw.finish hubit
  rw [hucrc, stepN_aw hu] at hdel
  refine ⟨?_, t, ?_, hdel⟩
  · rw [trace_add_of_stepN 1 hu, hutr, trace_succ_of_step 0 hs, record_of_finish hfin]
    rfl
  · rw [stepN_add_of_stepN 1 hu, stepN_succ_of_step 0 hs]
    rfl

theorem issuedWords_append (rs qs : List StepRecord) :
    issuedWords (rs ++ qs) = issuedWords rs ++ issuedWords qs :=
  List.filterMap_append

/-- The control words of an operation's bytes are the expansions of their `BYTE`s (R55, R83). -/
theorem issuedWords_bytesRecords (aw d : Nat) (S : List Byte) :
    issuedWords (bytesRecords aw d S) = S.flatMap byteWords := by
  induction S generalizing d with
  | nil => rfl
  | cons b S ih =>
    rw [bytesRecords, issuedWords_append, ih, List.flatMap_cons]
    rfl

theorem issuedWords_operationRecords (aw d : Nat) (S : List Byte) :
    issuedWords (operationRecords aw d S) = calcWords S := by
  have hcons : ∀ w a rs, issuedWords (⟨.accept, some w, a⟩ :: rs) = w :: issuedWords rs := fun _ _ _ => rfl
  rw [operationRecords, hcons, issuedWords_append, issuedWords_bytesRecords]
  rfl

/-! ## Host programs (R56, R117, R126) -/

/-- The inputs a host program drives do not outlast their step, and with none to come the step's inputs
are all 0. -/
theorem step_withInputs_quiet {s : State} (h : s.inputs = []) :
    step (s.withInputs [HostInput.quiet]) = step s := by
  obtain ⟨crc, busy, done, ptr, cnt, bit, aw, mem, inputs, draws⟩ := s
  obtain rfl : inputs = [] := h
  rfl

theorem kind_withInputs_quiet {s : State} (h : s.inputs = []) :
    (s.withInputs [HostInput.quiet]).kind = s.kind := by
  have hin : (s.withInputs [HostInput.quiet]).input = s.input := by
    rw [input_withInputs_cons, State.input, h]
    rfl
  exact kind_congr (by rw [hin]) rfl (fun _ => by rw [hin]) rfl rfl

theorem HostRun.oneStep_of_step {r : HostRun} {i : HostInput} {t : State}
    (h : step (r.state.withInputs [i]) = .next t) :
    r.oneStep i = .next { r with
      state := t, kinds := r.kinds ++ [(r.state.withInputs [i]).kind] } := by
  rw [HostRun.oneStep, h]

theorem stepKinds_succ_of_step {s t : State} (n : Nat) (h : step s = .next t) :
    stepKinds (n + 1) s = s.kind :: stepKinds n t := by
  rw [stepKinds, trace_succ_of_step n h]
  rfl

/-- A wait takes the steps up to the first state with `DONE = 1`. -/
theorem waitDone_of_stepN {n fuel : Nat} {r : HostRun} {t : State} (hquiet : r.state.inputs = [])
    (hrun : stepN n r.state = .next t) (hdone : t.done = true)
    (hbefore : ∀ k < n, ∀ u, stepN k r.state = .next u → u.done = false) (hfuel : n ≤ fuel) :
    waitDone fuel r = some (.next { r with
      state := t, kinds := r.kinds ++ stepKinds n r.state }) := by
  induction n generalizing r fuel with
  | zero =>
    cases hrun
    have hkinds : r.kinds ++ stepKinds 0 r.state = r.kinds := List.append_nil _
    rw [hkinds]
    cases fuel <;> rw [waitDone, if_pos hdone]
  | succ n ih =>
    obtain ⟨fuel, rfl⟩ : ∃ m, fuel = m + 1 := Nat.exists_eq_succ_of_ne_zero (by omega)
    obtain ⟨u, hu, ht⟩ := andThen_eq_next hrun
    have hnot : r.state.done = false := hbefore 0 n.succ_pos _ rfl
    have hone := HostRun.oneStep_of_step ((step_withInputs_quiet hquiet).trans hu)
    rw [kind_withInputs_quiet hquiet] at hone
    have huquiet : u.inputs = [] := by rw [step_inputs hu, hquiet, List.tail_nil]
    have hubefore : ∀ k < n, ∀ v, stepN k u = .next v → v.done = false := fun k hk v hv =>
      hbefore (k + 1) (Nat.succ_lt_succ hk) v ((stepN_succ_of_step k hu).trans hv)
    rw [waitDone, if_neg (by simp [hnot]), hone]
    exact (ih huquiet ht hubefore (Nat.le_of_succ_le_succ hfuel)).trans
      (by rw [stepKinds_succ_of_step n hu, List.append_assoc, List.singleton_append])

/-- One host program after another. -/
theorem runHost_append_of_next {fuel : Nat} {as bs : List HostAction} {r u : HostRun}
    (h : runHost fuel as r = some (.next u)) : runHost fuel (as ++ bs) r = runHost fuel bs u := by
  induction as generalizing r with
  | nil => cases h; rfl
  | cons a as ih =>
    rw [runHost] at h
    split at h
    next => cases h
    next v hv => rw [List.cons_append, runHost_cons_of_next hv]; exact ih h
    next => cases h
    next => cases h

/-- What follows steps in which every accepted operation has finished is judged by itself. -/
theorem everyStartFinished_append {p : Bool} {ks js : List StepKind}
    (h : everyStartFinished p ks = true) :
    everyStartFinished p (ks ++ js) = everyStartFinished false js := by
  induction ks generalizing p with
  | nil =>
    obtain rfl : p = false := by simpa [everyStartFinished] using h
    rfl
  | cons k ks ih =>
    cases k with
    | reset =>
      obtain ⟨hp, hks⟩ := Bool.and_eq_true_iff.1 h
      show (!p && everyStartFinished false (ks ++ js)) = _
      rw [hp, Bool.true_and, ih hks]
    | _ => exact ih h

/-- FETCH and SHIFT steps neither accept nor finish an operation. -/
theorem everyStartFinished_window_append {p : Bool} {ks js : List StepKind}
    (h : ∀ k ∈ ks, k = .fetch ∨ k = .shift) :
    everyStartFinished p (ks ++ js) = everyStartFinished p js := by
  induction ks with
  | nil => rfl
  | cons k ks ih =>
    obtain ⟨hk, hks⟩ := List.forall_mem_cons.1 h
    rcases hk with rfl | rfl <;> exact ih hks

theorem kinds_bytesRecords (aw d : Nat) (S : List Byte) :
    ∀ k ∈ (bytesRecords aw d S).map StepRecord.kind, k = .fetch ∨ k = .shift := by
  induction S generalizing d with
  | nil => nofun
  | cons b S ih =>
    rw [bytesRecords, List.map_append]
    refine List.forall_mem_append.2 ⟨?_, ih (d + 1)⟩
    simp [byteRecords]

/-- An operation's own steps finish what they accept. -/
theorem everyStartFinished_operation (p : Bool) (aw d : Nat) (S : List Byte) :
    everyStartFinished p ((operationRecords aw d S).map StepRecord.kind) = true := by
  rw [operationRecords, List.map_cons, List.map_append]
  exact everyStartFinished_window_append (kinds_bytesRecords aw d S)

/-- The host has nothing under way: no inputs to come, no operation in its window, and every accepted
one finished, over the memory `m` of `aw`-bit addresses. -/
structure HostRun.Ready (r : HostRun) (aw : Nat) (m : Memory) : Prop where
  inputs : r.state.inputs = []
  busy : r.state.busy = false
  aw : r.state.aw = aw
  mem : r.state.mem = m
  finished : everyStartFinished false r.kinds = true

/-- A RESET step makes any state ready (R111). -/
theorem HostRun.act_reset (fuel : Nat) (s : State) :
    ∃ u, (HostRun.start s).act fuel .reset = some (.next u) ∧ u.reads = [] ∧ u.Ready s.aw s.mem := by
  have hk : (s.withInputs [{ HostInput.quiet with rst := true }]).kind = .reset :=
    (kind_eq_reset_iff _).2 rfl
  have hone := HostRun.oneStep_of_step (r := HostRun.start s) (step_of_reset hk)
  refine ⟨_, congrArg some hone, rfl, rfl, rfl, rfl, rfl, ?_⟩
  show everyStartFinished false [(s.withInputs [{ HostInput.quiet with rst := true }]).kind] = true
  rw [hk]
  rfl

/-- While an operation runs after its ACCEPT step, `DONE` stays 0 (R17, R18). -/
theorem done_false_in_operation {s t u : State} {S : List Byte} {n : Nat} (hk : s.kind = .accept)
    (hbuf : s.mem.buffer s.aw s.input.data s.input.length.toNat = some S)
    (hund : Undisturbed (9 * S.length + 2) s.input.data S.length s) (hs : step s = .next t)
    (hn : n < 9 * S.length + 1) (hu : stepN n t = .next u) : u.done = false := by
  obtain ⟨t', hs', -, hbit, hw⟩ := step_accept_bytesLeft hk hbuf hund
  obtain rfl : t' = t := Host.Outcome.next.inj (hs'.symm.trans hs)
  have hlegal : SequencerInv t' := by
    rw [step_of_accept hk] at hs
    cases hs
    exact sequencerInv_of_busy rfl rfl
  obtain ⟨v, hv, hbusy⟩ := hw.toInWindow.stepN_busy (n := n) (by omega)
  obtain rfl : v = u := Host.Outcome.next.inj (hv.symm.trans hu)
  obtain ⟨-, hdone, -⟩ := stepN_keeps_sequencerInv hlegal hu
  exact hdone hbusy

/-- The state in which a host that drives nothing else starts an operation (log entry 15). -/
def State.starting (s : State) (data : Nat) (length : BitVec 16) : State :=
  s.withInputs [{ HostInput.quiet with start := true, data := data, length := length }]

theorem kind_starting {s : State} (hbusy : s.busy = false) (data : Nat) (length : BitVec 16) :
    (s.starting data length).kind = .accept :=
  (kind_eq_accept_iff _).2 ⟨rfl, hbusy, rfl⟩

theorem starting_noWrites (n : Nat) (s : State) (data : Nat) (length : BitVec 16) :
    NoWrites n (s.starting data length) := by
  intro i hi
  rw [List.mem_singleton.1 (List.mem_of_mem_take hi)]
  rfl

theorem starting_undisturbed (n : Nat) (s : State) (data : Nat) (length : BitVec 16) (d L : Nat) :
    Undisturbed n d L (s.starting data length) := by
  intro i hi
  rw [List.mem_singleton.1 (List.mem_of_mem_take hi)]
  exact ⟨rfl, nofun⟩

/-- A job of an idle block: `start`, the wait and the read take the steps of the operation and read the
checksum it delivers. -/
theorem runHost_job {r : HostRun} {data fuel : Nat} {length : BitVec 16} {S : List Byte}
    (hbusy : r.state.busy = false)
    (hbuf : r.state.mem.buffer r.state.aw data length.toNat = some S)
    (hfuel : 9 * length.toNat + 1 ≤ fuel) :
    ∃ t, runHost fuel [.start data length, .wait, .read] r = some (.next {
        state := t, kinds := r.kinds ++ (operationRecords r.state.aw data S).map StepRecord.kind,
        reads := r.reads ++ [t.crc] }) ∧
      Delivered t (crc16Arc S) ((data + S.length) % 2 ^ r.state.aw) ∧
      t.inputs = [] ∧ t.aw = r.state.aw ∧ t.mem = r.state.mem := by
  have hk := kind_starting hbusy data length
  have hund := starting_undisturbed (9 * S.length + 2) r.state data length data S.length
  obtain ⟨htr, t, ht, hdel⟩ := stepN_operation hk hbuf hund
  obtain ⟨a, ha, hat⟩ := andThen_eq_next ht
  have haquiet : a.inputs = [] := step_inputs ha
  have hlen : S.length = length.toNat := Memory.buffer_length hbuf
  have hstart : r.act fuel (.start data length) = some (.next { r with
      state := a, kinds := r.kinds ++ [(r.state.starting data length).kind] }) :=
    congrArg some (HostRun.oneStep_of_step ha)
  have hwait := waitDone_of_stepN (fuel := fuel)
    (r := { r with state := a, kinds := r.kinds ++ [(r.state.starting data length).kind] })
    haquiet hat hdel.done (fun k hlt u => done_false_in_operation hk hbuf hund ha hlt) (by omega)
  have hkinds : r.kinds ++ [(r.state.starting data length).kind] ++ stepKinds (9 * S.length + 1) a =
      r.kinds ++ (operationRecords r.state.aw data S).map StepRecord.kind := by
    rw [List.append_assoc, List.singleton_append, ← stepKinds_succ_of_step _ ha, stepKinds, htr]
    rfl
  have haw := stepN_aw ht
  have hmem := stepN_mem (starting_noWrites _ r.state data length) ht
  refine ⟨t, ?_, hdel, ?_, haw, hmem⟩
  · rw [runHost_cons_of_next hstart, runHost_cons_of_next (a := .wait) hwait, ← hkinds]
    rfl
  · rw [stepN_inputs hat, haquiet, List.drop_nil]

/-- A ready host that does a job has read its checksum and is ready again. -/
theorem HostRun.Ready.job {r : HostRun} {aw : Nat} {m : Memory} {data fuel : Nat} {length : BitVec 16}
    {S : List Byte} (h : r.Ready aw m) (hbuf : m.buffer aw data length.toNat = some S)
    (hfuel : 9 * length.toNat + 1 ≤ fuel) :
    ∃ u, runHost fuel [.start data length, .wait, .read] r = some (.next u) ∧
      u.reads = r.reads ++ [crc16Arc S] ∧ u.Ready aw m ∧
      u.state.done = true ∧ u.state.crc = crc16Arc S := by
  obtain ⟨-, hbusy, rfl, rfl, hfinished⟩ := h
  obtain ⟨t, ht, hdel, hinputs, haw, hmem⟩ := runHost_job hbusy hbuf hfuel
  refine ⟨_, ht, congrArg (r.reads ++ [·]) hdel.crc, ⟨hinputs, hdel.busy, haw, hmem, ?_⟩, hdel.done,
    hdel.crc⟩
  rw [everyStartFinished_append hfinished]
  exact everyStartFinished_operation _ _ _ _

/-- A ready host that does any number of jobs has read their checksums, in order, and is ready again,
with the last one delivered. -/
theorem HostRun.Ready.jobs {r : HostRun} {aw fuel : Nat} {m : Memory}
    {js : List (Nat × BitVec 16 × List Byte)} (h : r.Ready aw m)
    (hjs : ∀ j ∈ js, m.buffer aw j.1 j.2.1.toNat = some j.2.2 ∧ 9 * j.2.1.toNat + 1 ≤ fuel) :
    ∃ u, runHost fuel (js.flatMap fun j => [.start j.1 j.2.1, .wait, .read]) r = some (.next u) ∧
      u.reads = r.reads ++ js.map (fun j => crc16Arc j.2.2) ∧ u.Ready aw m ∧
      ∀ j, js.getLast? = some j → u.state.done = true ∧ u.state.crc = crc16Arc j.2.2 := by
  induction js using List.reverseRecOn with
  | nil => exact ⟨r, rfl, (List.append_nil _).symm, h, nofun⟩
  | append_singleton js j ih =>
    obtain ⟨v, hv, hvreads, hvready, -⟩ := ih fun i hi => hjs i (List.mem_append_left _ hi)
    obtain ⟨hbuf, hfuel⟩ := hjs j (by simp)
    obtain ⟨u, hu, hreads, hready, hdone, hcrc⟩ := hvready.job hbuf hfuel
    refine ⟨u, ?_, ?_, hready, fun i hi => ?_⟩
    · rw [List.flatMap_append, runHost_append_of_next hv, List.flatMap_singleton, hu]
    · rw [hreads, hvreads, List.map_append, List.append_assoc, List.map_singleton]
    · obtain rfl : j = i := by simpa using hi
      exact ⟨hdone, hcrc⟩

end Sys2Proof.Machine

open Sys2Proof Sys2Proof.Machine

/-- Settles O53: the ACCEPT step opens the window over the buffer, nine steps fold in each byte, and
FINISH delivers what the register holds. -/
theorem operationComputesTheChecksum : Obligations.OperationComputesTheChecksum := by
  intro s S hk hbuf _ hund
  obtain ⟨htr, t, ht, hdel⟩ := stepN_operation hk hbuf hund
  refine ⟨Memory.buffer_length hbuf, htr, by rw [htr, issuedWords_operationRecords], fun i hi => ?_,
    t, ht, hdel.crc, hdel.busy, hdel.done, hdel.cnt, hdel.bit, hdel.ptr, fun n hidle => ?_⟩
  · rw [← List.take_append_drop i S] at hbuf hund
    obtain ⟨u, hu, -, hcrc, -⟩ := stepN_operation_bytes hk hbuf hund
    rw [List.length_take_of_le hi] at hu
    exact ⟨u, hu, hcrc⟩
  · obtain ⟨u, hu, h⟩ := hdel.stepN_of_onlyIdle hidle
    exact ⟨u, hu, h.crc, h.busy, h.done, h.cnt, h.bit, h.ptr.trans hdel.ptr.symm⟩

/-- Settles O55: with no byte to read, nothing can disturb the buffer, and the operation is its two
outer steps. -/
theorem zeroLengthOperation : Obligations.ZeroLengthOperation := by
  intro s hk hlen hreset
  have hbuf : s.mem.buffer s.aw s.input.data s.input.length.toNat = some [] := by rw [hlen]; rfl
  obtain ⟨htr, t, ht, hdel⟩ := stepN_operation hk hbuf fun i hi => ⟨hreset i hi, fun _ _ _ => nofun⟩
  refine ⟨?_, ?_, t, ht, hdel.crc, hdel.busy, hdel.done, hdel.crc⟩
  · exact congrArg readAddresses htr
  · exact congrArg (List.map StepRecord.kind) htr

/-- Settles O56: the measure falls by one in every step of the window, which the ACCEPT step opens with
`BIT` at 0. -/
theorem everyOperationFinishes : Obligations.EveryOperationFinishes := by
  refine ⟨fun s t => step_lowers_measure, fun s hbusy hrst => ?_, fun s S hbusy hptr hbuf hreset => ?_,
    fun s S hk hbuf hreset => ?_⟩
  · rw [kind_eq_finish_iff, ← Fin.val_eq_zero_iff, BitVec.toNat_eq]
    simp [hrst, hbusy, and_comm]
  · exact InWindow.finishes ⟨hbusy, (Nat.mod_eq_of_lt hptr).symm, rfl,
      Memory.read_isSome_of_buffer hbuf, hreset⟩
  · obtain ⟨t, hs, hbit, hw⟩ :=
      step_accept_inWindow hk (Memory.read_isSome_of_buffer hbuf) hreset
    have hlen : s.input.length.toNat < 65536 := s.input.length.isLt
    refine ⟨by omega, fun n hn => ?_, ?_⟩
    · rw [stepN_succ_of_step n hs]
      exact hw.stepN_busy (by omega)
    · have hfin := hw.finishes
      rw [hbit] at hfin
      rw [stepN_succ_of_step _ hs]
      exact hfin

/-- Settles O57: the ACCEPT step writes all six registers, and each of two operations over the same
bytes delivers their checksum. -/
theorem operationsAreIndependent : Obligations.OperationsAreIndependent := by
  refine ⟨fun s u hks hku haw hmem hin hdraws => ?_, fun s u S hks hku hbs hbu _ _ hus huu => ?_⟩
  · rw [step_of_accept hks, step_of_accept hku]
    simp only [State.accept_eq, State.arrive, State.input, haw, hmem, hin, hdraws]
  · obtain ⟨-, v, hv, hdv⟩ := stepN_operation hks hbs hus
    obtain ⟨-, w, hw, hdw⟩ := stepN_operation hku hbu huu
    exact ⟨v, w, hv, hw, hdv.crc.trans hdw.crc.symm⟩

/-- Settles O9: `exec` of `START` when idle, the condition of the ACCEPT row, and its step. -/
theorem startAccepted : Obligations.StartAccepted := by
  refine ⟨fun data length s hbusy => ?_, fun s => ?_, fun s hk => ⟨?_, ?_⟩, fun s t hk hlen h hrst => ?_⟩
  · rw [exec_start, hbusy, State.accept_eq]
    rfl
  · rw [kind_eq_accept_iff]
    tauto
  · exact memRe_eq_false (by simp [hk])
  · rw [step_of_accept hk, State.accept_eq]
    rfl
  · rw [step_of_accept hk] at h
    cases h
    exact (kind_eq_finish_iff _).2 ⟨hrst, rfl, rfl, hlen⟩

/-- Settles O11: a busy block ignores `start`, only FINISH and a reset clear `BUSY`, and FINISH leaves
the block ready to accept. -/
theorem startWhileBusyIgnored : Obligations.StartWhileBusyIgnored := by
  refine ⟨fun data length s hbusy => ?_, fun s i is data length hbusy => ?_,
    fun s t hbusy hrst h hidle => ?_, fun s t hk h hrst hstart => ?_⟩
  · rw [exec_start, hbusy]
    rfl
  · rw [step_withInputs_of_busy hbusy, step_withInputs_start s i is false (.inl hbusy)]
  · obtain ⟨-, -, hends, -⟩ := writersOfEachRegister s t h
    refine (hends hidle hbusy).resolve_right fun hk => ?_
    rw [kind_eq_reset_iff, hrst] at hk
    cases hk
  · obtain ⟨-, hbusy, -⟩ := step_finish_registers hk h
    have hs := step_of_accept ((kind_eq_accept_iff t).2 ⟨hrst, hbusy, hstart⟩)
    exact ⟨_, hs, rfl, rfl, rfl⟩

/-- Settles O13: an IDLE step takes its inputs and does nothing else. -/
theorem idleKeepsTheResult : Obligations.IdleKeepsTheResult := by
  refine ⟨fun s => ?_, fun s hk => ⟨memRe_eq_false (by simp [hk]), step_of_idle hk⟩,
    fun n s => stepN_of_onlyIdle⟩
  rw [kind_eq_idle_iff]
  tauto

/-- Settles O14: the SHIFT step by its row, and the eight shifts a FETCH step owes. -/
theorem shiftStep : Obligations.ShiftStep := by
  refine ⟨fun s => ?_, fun s hk => ⟨memRe_eq_false (by simp [hk]), ?_⟩,
    fun s i is v data length hk => ?_, fun s t n hk h hreset hn => ?_⟩
  · rw [kind_eq_shift_iff]
    tauto
  · obtain ⟨-, -, hbit⟩ := (kind_eq_shift_iff s).1 hk
    exact ⟨_, step_of_shift hk, rfl, decBit_val hbit⟩
  · obtain ⟨-, hbusy, -⟩ := (kind_eq_shift_iff _).1 hk
    exact step_withInputs_of_busy hbusy i is v data length
  · obtain ⟨hbusy, hbit⟩ := step_fetch_owes hk h
    obtain ⟨m, hm⟩ : ∃ m, 8 = m + n := ⟨8 - n, by omega⟩
    rw [hm] at hreset
    obtain ⟨u, hu, hubusy, hubit, hureset⟩ :=
      stepN_shifts_owed hbusy ((congrArg Fin.val hbit).trans hm) hreset
    refine ⟨u, hu, by omega, fun hlt => ?_⟩
    obtain ⟨k, rfl⟩ : ∃ k, m = k + 1 := Nat.exists_eq_succ_of_ne_zero (by omega)
    exact kind_eq_shift_of_owed hubusy hubit hureset

/-- Settles O15: the FETCH step by its row, with and without a byte at `PTR`; after the last one no byte
is left when its eight shifts are taken. -/
theorem fetchStep : Obligations.FetchStep := by
  refine ⟨fun s => ?_, fun s b hk hb => ⟨(memRe_eq_true_iff s).2 hk, rfl, step_of_fetch hk hb⟩,
    fun s hk hb => step_of_fetch_undefined hk hb, fun s t hk h hptr => ?_,
    fun s i is v data length hk => ?_, fun s t hk hcnt h hreset => ?_⟩
  · rw [kind_eq_fetch_iff]
    tauto
  · obtain ⟨b, hb⟩ := fetchByte_of_step hk h
    rw [step_of_fetch hk hb] at h
    cases h
    show (s.ptr + 1) % 2 ^ s.aw = 0
    rw [hptr, Nat.sub_add_cancel Nat.one_le_two_pow, Nat.mod_self]
  · obtain ⟨-, hbusy, -⟩ := (kind_eq_fetch_iff _).1 hk
    exact step_withInputs_of_busy hbusy i is v data length
  · obtain ⟨-, hbit⟩ := step_fetch_owes hk h
    obtain ⟨u, d, L, hu, hw, hm, -⟩ :=
      (step_fetch_last_inWindow hk hcnt h hreset).stepN (n := 8) (by simp [hbit])
    have hend : 9 * L + u.bit.val = 0 := by
      rw [hbit] at hm
      simpa using hm
    obtain rfl : L = 0 := by omega
    exact ⟨u, hu, hw.finish (by omega)⟩

/-- Settles O16: the FINISH step by its row, and what it leaves for the step after it. -/
theorem finishStep : Obligations.FinishStep := by
  refine ⟨fun s => ?_, fun s hk => ⟨memRe_eq_false (by simp [hk]), step_of_finish hk⟩,
    fun s i is v hk => ?_, fun s t hk h => ?_⟩
  · rw [kind_eq_finish_iff]
    tauto
  · obtain ⟨-, hbusy, -⟩ := (kind_eq_finish_iff _).1 hk
    exact step_withInputs_start s i is v (.inl hbusy)
  · obtain ⟨hdone, hbusy, hcrc⟩ := step_finish_registers hk h
    exact ⟨hdone, hbusy, hcrc, fun hrst hstart => (kind_eq_accept_iff t).2 ⟨hrst, hbusy, hstart⟩⟩

/-- Settles O17: the six rows of the table, each by its condition, and the datapath operation of each. -/
theorem stepKindTable : Obligations.StepKindTable := by
  refine ⟨fun s => ⟨(kind_eq_reset_iff s).2, fun hr hb hs => (kind_eq_accept_iff s).2 ⟨hr, hb, hs⟩,
    fun hr hb hs => (kind_eq_idle_iff s).2 ⟨hr, hb, hs⟩,
    fun hr hb hbit => (kind_eq_shift_iff s).2 ⟨hr, hb, hbit⟩,
    fun hr hb hbit hcnt => (kind_eq_fetch_iff s).2 ⟨hr, hb, hbit, hcnt⟩,
    fun hr hb hbit hcnt => (kind_eq_finish_iff s).2 ⟨hr, hb, hbit, hcnt⟩⟩,
    fun s => step_exists_of_not_fetch, fun s hk => ?_, fun s t h => ?_⟩
  · exact ⟨fun ⟨t, h⟩ => fetchByte_of_step hk h, fun ⟨b, hb⟩ => ⟨_, step_of_fetch hk hb⟩⟩
  · rcases step_cases h with ⟨hk, rfl⟩ | ⟨hk, rfl⟩ | ⟨hk, rfl⟩ | ⟨hk, rfl⟩ | ⟨hk, b, hb, rfl⟩ | ⟨hk, rfl⟩
    · simp [hk, issuedWord_eq]
    · simp [hk, dp]
    · simp [hk, dp]
    · simp [hk, dp]
    · simp [hk, hb, dp]
    · simp [hk, dp]

/-- Settles O10: `START` is accepted, which writes the block's registers alone, or without effect. -/
theorem startFrame : Obligations.StartFrame := by
  intro data length s
  rw [exec_start]
  cases hbusy : s.busy with
  | false => exact ⟨_, rfl, fun _ => rfl, rfl, rfl, rfl, .inl rfl, nofun⟩
  | true => exact ⟨_, rfl, fun _ => rfl, rfl, rfl, rfl, .inr rfl, fun _ => rfl⟩

/-- Settles O19: the step as `exec` of the word issued and then `advance`, by the kind of the step. -/
theorem stepRunsTheDecodedInstruction : Obligations.StepRunsTheDecodedInstruction := by
  refine ⟨fun s w hw => step_of_issuedWord hw, fun i s => ?_, fun s i => ⟨rfl, rfl, rfl, rfl⟩⟩
  rw [advance, decode_descriptor]

/-- Settles O32: each output is a field of the state, and `mem_re` is the kind of the step. -/
theorem outputsShowTheState : Obligations.OutputsShowTheState := fun s =>
  ⟨rfl, rfl, rfl, rfl, memRe_eq_true_iff s⟩

/-- Settles O58: the RESET step makes the host ready, and every job from a ready host reads its checksum
and leaves it ready. -/
theorem hostProgramReadsTheChecksums : Obligations.HostProgramReadsTheChecksums := by
  intro s jobs fuel hjobs
  obtain ⟨r, hr, hreads, hready⟩ := HostRun.act_reset fuel s
  obtain ⟨u, hu, hureads, huready, hlast⟩ := hready.jobs (fuel := fuel) (js := jobs) fun j hj =>
    ⟨(hjobs j hj).1, (hjobs j hj).2.2⟩
  rw [hreads, List.nil_append] at hureads
  exact ⟨u, (runHost_cons_of_next hr).trans hu, hureads,
    ⟨huready.finished, huready.inputs, huready.busy⟩, huready.mem, hlast⟩

end

section
/-! PROOFS of the family 42_equivalent_forms.md: BYTE, the table and TBL, and the serial STEP are one function of the register (R83 to R89), the table variant delivers the checksum (R87), and the laws of the checksum (R90 to R94). -/

namespace Sys2Proof.Machine

/-! ## `SHR` repeated is linear and one to one (R64) -/

theorem shrN_succ (n : Nat) (c : Word) : shrN (n + 1) c = shr1 (shrN n c) := shrN_add n 1 c

theorem shrN_injective (n : Nat) : Function.Injective (shrN n) := by
  have h : shr1^[n] = shrN n := funext (iterate_shr1 n)
  exact h ▸ shr1_bijective.injective.iterate n

/-- A register that is not zero stays so under any number of shifts. -/
theorem shrN_ne_zero (n : Nat) {c : Word} (h : c ≠ 0x0000#16) : shrN n c ≠ 0x0000#16 := fun h0 =>
  h (shrN_injective n (h0.trans (shrN_zero n).symm))

/-- Two shift counts agree on 0x0001 exactly when they differ by whole turns of its cycle. -/
theorem shrN_add_one_eq_iff (m n : Nat) :
    shrN (m + n) 0x0001#16 = shrN n 0x0001#16 ↔ 32767 ∣ m := by
  rw [shrN_add, (shrN_injective n).eq_iff, ← isPeriodicPt_shr1_iff,
    Function.isPeriodicPt_iff_minimalPeriod_dvd, minimalPeriod_shr1_one]

theorem shr8_xor (a c : Word) : shr8 (a ^^^ c) = shr8 a ^^^ shr8 c := shrN_xor 8 a c

/-! ## A byte in the register -/

theorem zext16_xor (a b : Byte) : zext16 (a ^^^ b) = zext16 a ^^^ zext16 b := BitVec.setWidth_xor

theorem zext16_injective : Function.Injective zext16 := fun a b h => by
  have hlow := congrArg (BitVec.setWidth 8) h
  simpa [zext16] using hlow

theorem zext16_ushiftRight (b : Byte) (n : Nat) : zext16 b >>> n = zext16 (b >>> n) := by
  refine BitVec.eq_of_getLsbD_eq fun i hi => ?_
  have hb (h : 16 ≤ n + i) : b.getLsbD (n + i) = false := BitVec.getLsbD_of_ge _ _ (by omega)
  by_cases h : n + i < 16
  · simp [zext16, h, hi]
  · simp [zext16, h, hb (by omega)]

/-- A logical shift by 8 leaves the high byte, zero-extended. -/
theorem ushiftRight_eight (c : Word) : c >>> 8 = zext16 (c.extractLsb' 8 8) := by
  refine BitVec.eq_of_getLsbD_eq fun i hi => ?_
  by_cases h : i < 8
  · simp [zext16, h, hi]
  · rw [BitVec.getLsbD_ushiftRight, BitVec.getLsbD_of_ge c _ (by omega)]
    simp [zext16, h]

/-- XORing in a byte leaves the high byte of the register. -/
theorem extract_high_xor_zext16 (c : Word) (b : Byte) :
    (c ^^^ zext16 b).extractLsb' 8 8 = c.extractLsb' 8 8 := by
  refine BitVec.eq_of_getLsbD_eq fun i hi => ?_
  simp [zext16, hi]

/-- XORing in a byte meets the low byte of the register. -/
theorem extract_low_xor_zext16 (c : Word) (b : Byte) :
    (c ^^^ zext16 b).extractLsb' 0 8 = c.extractLsb' 0 8 ^^^ b := by
  refine BitVec.eq_of_getLsbD_eq fun i hi => ?_
  simp [zext16, hi, show i < 16 by omega]

/-! ## `BYTE` as control words (R83) -/

theorem runDatapath_cons {w : CtrlWord} {s t : State} (ws : List CtrlWord)
    (h : exec (decodeDp w) s = .next t) : runDatapath (w :: ws) s = runDatapath ws t := by
  rw [runDatapath, h, andThen_next]

theorem runDatapath_shrWords (n : Nat) (s : State) :
    runDatapath (List.replicate n (ctrlWord 0b11#2 0x00#8)) s = .next { s with crc := shrN n s.crc } := by
  induction n generalizing s with
  | zero => rfl
  | succ n ih =>
    rw [List.replicate_succ, runDatapath_cons _ (by rw [decodeDp_shrWord, exec_shr]), ih]
    rfl

theorem runDatapath_byteWords (b : Byte) (s : State) :
    runDatapath (byteWords b) s = .next { s with crc := byteStep s.crc b } := by
  rw [byteWords, runDatapath_cons _ (by rw [decodeDp_xorbWord, exec_xorb]), runDatapath_shrWords]
  rfl

/-- The words of a byte sequence fold it into `CRC` and change nothing else. -/
theorem runDatapath_bytesWords (S : List Byte) (s : State) :
    runDatapath (S.flatMap byteWords) s = .next { s with crc := crcFrom s.crc S } := by
  induction S generalizing s with
  | nil => rfl
  | cons b S ih =>
    rw [List.flatMap_cons, runDatapath_append, runDatapath_byteWords, andThen_next, ih]
    rfl

theorem map_decodeDp_byteWords (b : Byte) :
    (byteWords b).map decodeDp = .xorb b :: List.replicate 8 .shr := by
  rw [byteWords, List.map_cons, List.map_replicate, decodeDp_xorbWord, decodeDp_shrWord,
    Config.bitsPerByte]

theorem byteStep_zero_register (b : Byte) : byteStep 0x0000#16 b = tableEntry b := by
  rw [byteStep, BitVec.zero_xor, tableEntry]

/-! ## The table (R84 to R87) -/

/-- Eight shifts bring the high byte down unchanged and replace the low byte by its table entry: `shr8`
is linear, and the high byte alone has no bit to feed back (R84). -/
theorem shr8_eq_tableEntry (x : Word) :
    shr8 x = zext16 (x.extractLsb' 8 8) ^^^ tableEntry (x.extractLsb' 0 8) := by
  have hhigh : shr8 (zext16 (x.extractLsb' 8 8) <<< 8) = zext16 (x.extractLsb' 8 8) :=
    shrN_zext16_shiftLeft _ (Nat.le_refl 8)
  calc shr8 x = shr8 (zext16 (x.extractLsb' 0 8) ^^^ zext16 (x.extractLsb' 8 8) <<< 8) := by
        rw [zext16_low_xor_high]
    _ = tableEntry (x.extractLsb' 0 8) ^^^ zext16 (x.extractLsb' 8 8) := by
        rw [shr8_xor, hhigh, tableEntry]
    _ = _ := BitVec.xor_comm ..

theorem byteStep_eq_tableEntry (c : Word) (b : Byte) :
    byteStep c b = zext16 (c.extractLsb' 8 8) ^^^ tableEntry (c.extractLsb' 0 8 ^^^ b) := by
  rw [byteStep, shr8_eq_tableEntry, extract_high_xor_zext16, extract_low_xor_zext16]

theorem tableEntry_xor (i j : Byte) : tableEntry (i ^^^ j) = tableEntry i ^^^ tableEntry j := by
  rw [tableEntry, zext16_xor, shr8_xor, tableEntry, tableEntry]

theorem tableEntry_injective : Function.Injective tableEntry :=
  (shrN_injective 8).comp zext16_injective

/-- The printed entries, all 256, against the definition of `T` (R86). -/
theorem table_eq_map_tableEntry :
    table = (List.range 256).map fun n => tableEntry (BitVec.ofNat 8 n) := by decide +kernel

theorem length_table : table.length = 256 := by
  rw [table_eq_map_tableEntry, List.length_map, List.length_range]

theorem tableAt_eq_tableEntry (i : Byte) : tableAt i = tableEntry i := by
  rw [tableAt, table_eq_map_tableEntry, List.getD_eq_getElem?_getD, List.getElem?_map,
    List.getElem?_range i.isLt]
  simp

theorem tblStep_eq_byteStep (c : Word) (b : Byte) : tblStep c b = byteStep c b := by
  rw [tblStep, tableAt_eq_tableEntry, ushiftRight_eight, extract_low_xor_zext16,
    byteStep_eq_tableEntry]

/-! ## An operation of the table variant (R87)

As in the bit-serial block, but no shift is ever owed: each byte left costs one step. -/

/-- Outside FETCH the variant takes the bit-serial block's step. -/
theorem tableFormStep_of_not_fetch {s : State} (h : s.kind ≠ .fetch) : tableFormStep s = step s :=
  if_neg h

theorem tableFormStep_of_fetch {s : State} {b : Byte} (h : s.kind = .fetch) (hb : s.fetchByte = some b) :
    tableFormStep s = .next (s.arrive.tblFetch b) := by
  rw [tableFormStep, if_pos h, hb]

theorem tableFormStepN_succ_of_step {s t : State} (n : Nat) (h : tableFormStep s = .next t) :
    tableFormStepN (n + 1) s = tableFormStepN n t := by
  rw [tableFormStepN, h, andThen_next]

/-- A buffer that begins with `b` has `b` at its first address, and the rest after it (R30). -/
theorem Memory.buffer_cons {m : Memory} {aw d : Nat} {b : Byte} {S : List Byte}
    (h : m.buffer aw d (b :: S).length = some (b :: S)) :
    m.read (d % 2 ^ aw) = some b ∧ m.buffer aw (d + 1) S.length = some S := by
  obtain ⟨_, _, hb, hS, hcons⟩ := Memory.buffer_succ h
  obtain ⟨rfl, rfl⟩ := List.cons.inj hcons
  exact ⟨hb, hS⟩

/-- The variant is inside an operation with the bytes `S` at `d` still to read, no shift owed, and
nothing disturbs them before the operation is over. -/
structure TableLeft (s : State) (d : Nat) (S : List Byte) : Prop where
  busy : s.busy = true
  bit : s.bit = 0
  ptr : s.ptr = d % 2 ^ s.aw
  cnt : s.cnt.toNat = S.length
  buffer : s.mem.buffer s.aw d S.length = some S
  undisturbed : Undisturbed (S.length + 1) d S.length s

theorem TableLeft.rst {s : State} {d : Nat} {S : List Byte} (h : TableLeft s d S) :
    s.input.rst = false :=
  State.input_of_forall_take (P := fun i => i.rst = false) rfl fun i hi => (h.undisturbed i hi).1

/-- The ACCEPT step of the variant is the block's; it starts `CRC` at 0x0000 (R69). -/
theorem tableFormStep_accept {s : State} {S : List Byte} (hk : s.kind = .accept)
    (hbuf : s.mem.buffer s.aw s.input.data s.input.length.toNat = some S)
    (hund : Undisturbed (S.length + 2) s.input.data S.length s) :
    ∃ t, tableFormStep s = .next t ∧ t.crc = 0x0000 ∧ TableLeft t s.input.data S := by
  have hlen : S.length = s.input.length.toNat := Memory.buffer_length hbuf
  have hs := step_of_accept hk
  rw [← hlen] at hbuf
  rw [tableFormStep_of_not_fetch (by simp [hk])]
  exact ⟨_, hs, rfl, rfl, rfl, rfl, hlen.symm, (buffer_of_step hs hund).trans hbuf,
    undisturbed_of_step hs hund⟩

/-- A TBL step folds the next byte into `CRC`. What it does to memory, to the inputs and to `PTR` and
`CNT` is what the block's FETCH does. -/
theorem TableLeft.fetch {s : State} {d : Nat} {b : Byte} {S : List Byte} (h : TableLeft s d (b :: S)) :
    ∃ t, tableFormStep s = .next t ∧ t.crc = byteStep s.crc b ∧ TableLeft t (d + 1) S := by
  have hcnt : s.cnt ≠ 0 := fun h0 => by
    have hlen := h.cnt
    simp [h0] at hlen
  have hk : s.kind = .fetch := (kind_eq_fetch_iff s).2 ⟨h.rst, h.busy, h.bit, hcnt⟩
  have hb : s.fetchByte = some b := by
    rw [fetchByte_of_no_write, h.ptr, (Memory.buffer_cons h.buffer).1]
    intro c hc
    rw [h.ptr]
    exact writes_elsewhere_of_undisturbed h.undisturbed c hc 0 (Nat.succ_pos _)
  have hs := step_of_fetch hk hb
  refine ⟨_, tableFormStep_of_fetch hk hb, tblStep_eq_byteStep .., h.busy, rfl, ?_, ?_, ?_, ?_⟩
  · simp [h.ptr, nextAddress]
  · have hdec := decCnt_toNat hcnt
    have hlen := h.cnt
    rw [List.length_cons] at hlen
    rw [State.tblFetch_cnt, State.arrive_cnt]
    omega
  · exact (Memory.buffer_cons ((buffer_of_step hs h.undisturbed).trans h.buffer)).2
  · have hund := undisturbed_of_step hs h.undisturbed
    exact undisturbed_tail hund

theorem TableLeft.finish {s : State} {d : Nat} (h : TableLeft s d []) :
    ∃ t, tableFormStep s = .next t ∧ t.crc = s.crc ∧ t.busy = false ∧ t.done = true := by
  have hcnt : s.cnt = 0 := BitVec.eq_of_toNat_eq h.cnt
  have hk : s.kind = .finish := (kind_eq_finish_iff s).2 ⟨h.rst, h.busy, h.bit, hcnt⟩
  rw [tableFormStep_of_not_fetch (by simp [hk])]
  exact ⟨_, step_of_finish hk, rfl, rfl, rfl⟩

/-- One step for each byte left folds it into `CRC`, and one more finishes. -/
theorem TableLeft.finishes {s : State} {d : Nat} {S : List Byte} (h : TableLeft s d S) :
    ∃ t, tableFormStepN (S.length + 1) s = .next t ∧ t.crc = crcFrom s.crc S ∧
      t.busy = false ∧ t.done = true := by
  induction S generalizing s d with
  | nil =>
    obtain ⟨t, hs, hcrc, hflags⟩ := h.finish
    exact ⟨t, tableFormStepN_succ_of_step 0 hs, hcrc, hflags⟩
  | cons b S ih =>
    obtain ⟨u, hs, hucrc, hu⟩ := h.fetch
    obtain ⟨t, ht, htcrc, hflags⟩ := ih hu
    exact ⟨t, (tableFormStepN_succ_of_step _ hs).trans ht, by rw [htcrc, hucrc]; rfl, hflags⟩

/-! ## The serial-input step (R88, R89) -/

theorem serialStep_eq_xor (c : Word) (d : Bool) : serialStep c d =
    (c >>> 1) ^^^ if Bool.xor (c.getLsbD 0) d then Config.polyR else 0x0000#16 := by
  unfold serialStep
  split <;> simp

/-- A `SHR` with a byte still in the register takes in the byte's bit 0 as the serial step does, and
leaves the byte shifted by one: the induction step of R89. -/
theorem shr1_xor_zext16 (c : Word) (b : Byte) :
    shr1 (c ^^^ zext16 b) = serialStep c (b.getLsbD 0) ^^^ zext16 (b >>> 1) := by
  have hbit : (c ^^^ zext16 b).getLsbD 0 = Bool.xor (c.getLsbD 0) (b.getLsbD 0) := by simp [zext16]
  rw [shr1_eq_xor, hbit, BitVec.ushiftRight_xor_distrib, zext16_ushiftRight, serialStep_eq_xor]
  ac_rfl

/-- `STEP d` is `XORB d` and then `SHR` (R88): the byte of one bit is used up by one shift. -/
theorem serialStep_eq_shr1 (c : Word) (d : Bool) :
    serialStep c d = shr1 (c ^^^ zext16 ((BitVec.ofBool d).setWidth 8)) := by
  have hbit : ((BitVec.ofBool d).setWidth 8).getLsbD 0 = d := by cases d <;> rfl
  have hrest : zext16 ((BitVec.ofBool d).setWidth 8 >>> 1) = 0x0000#16 := by cases d <;> rfl
  rw [shr1_xor_zext16, hbit, hrest, BitVec.xor_zero]

theorem serialStep_false (c : Word) : serialStep c false = shr1 c := by
  rw [serialStep_eq_xor, Bool.xor_false, ← shr1_eq_xor]

/-- `STEP` is linear in the pair of register and bit. -/
theorem serialStep_xor (c e : Word) (x y : Bool) :
    serialStep (c ^^^ e) (Bool.xor x y) = serialStep c x ^^^ serialStep e y := by
  have hbits : (BitVec.ofBool (Bool.xor x y)).setWidth 8 =
      (BitVec.ofBool x).setWidth 8 ^^^ (BitVec.ofBool y).setWidth 8 := by
    rw [← BitVec.ofBool_xor_ofBool, BitVec.setWidth_xor]
  rw [serialStep_eq_shr1, serialStep_eq_shr1, serialStep_eq_shr1, hbits, zext16_xor, ← shr1_xor]
  ac_rfl

theorem serialFrom_append (c : Word) (ds es : List Bool) :
    serialFrom c (ds ++ es) = serialFrom (serialFrom c ds) es :=
  List.foldl_append ..

theorem length_bitsLsbFirst (b : Byte) : (bitsLsbFirst b).length = 8 := by
  rw [bitsLsbFirst, List.length_map, List.length_range, Config.bitsPerByte]

theorem take_succ_bitsLsbFirst (b : Byte) {k : Nat} (h : k < 8) :
    (bitsLsbFirst b).take (k + 1) = (bitsLsbFirst b).take k ++ [b.getLsbD k] := by
  rw [List.take_succ_eq_append_getElem (by rwa [length_bitsLsbFirst])]
  simp [bitsLsbFirst]

/-- The bit-loop value after `k` shifts is the serial one with what is left of the byte (R89). -/
theorem shrN_xor_zext16 (c : Word) (b : Byte) {k : Nat} (h : k ≤ 8) :
    shrN k (c ^^^ zext16 b) = serialFrom c ((bitsLsbFirst b).take k) ^^^ zext16 (b >>> k) := by
  induction k with
  | zero => rfl
  | succ k ih =>
    have hbit : (b >>> k).getLsbD 0 = b.getLsbD k := by simp
    rw [shrN_succ, ih (by omega), shr1_xor_zext16, hbit, take_succ_bitsLsbFirst b h,
      serialFrom_append, BitVec.shiftRight_add]
    rfl

/-- After eight steps nothing of the byte is left. -/
theorem byteStep_eq_serialFrom (c : Word) (b : Byte) : byteStep c b = serialFrom c (bitsLsbFirst b) := by
  have hempty : zext16 (b >>> 8) = 0x0000#16 := by
    rw [BitVec.ushiftRight_eq_zero (Nat.le_refl 8)]
    rfl
  have h8 := shrN_xor_zext16 c b (Nat.le_refl 8)
  rwa [hempty, BitVec.xor_zero, List.take_of_length_le (length_bitsLsbFirst b).le] at h8

/-- The bit stream of a buffer drives the serial circuit to the register the bytes drive `BYTE` to. -/
theorem crcFrom_eq_serialFrom (c : Word) (S : List Byte) :
    crcFrom c S = serialFrom c (S.flatMap bitsLsbFirst) := by
  induction S generalizing c with
  | nil => rfl
  | cons b S ih =>
    rw [List.flatMap_cons, serialFrom_append, ← byteStep_eq_serialFrom, ← ih]
    rfl

theorem length_bitStream (S : List Byte) : (S.flatMap bitsLsbFirst).length = 8 * S.length := by
  simp only [List.length_flatMap, length_bitsLsbFirst, List.map_const', List.sum_replicate_nat]
  exact Nat.mul_comm ..

/-! ## The laws of the checksum (R90, R91, R93) -/

/-- `BYTE` is linear in the pair of register and byte (R90). -/
theorem byteStep_xor (c d : Word) (a b : Byte) :
    byteStep (c ^^^ d) (a ^^^ b) = byteStep c a ^^^ byteStep d b := by
  have hxorb := dp_xorb_xor a b c d
  simp only [dp] at hxorb
  rw [byteStep, hxorb, shr8_xor, byteStep, byteStep]

theorem crcFrom_zipWith_xor (c d : Word) {A B : List Byte} (h : A.length = B.length) :
    crcFrom (c ^^^ d) (A.zipWith (· ^^^ ·) B) = crcFrom c A ^^^ crcFrom d B := by
  induction A generalizing c d B with
  | nil =>
    obtain rfl : B = [] := List.length_eq_zero_iff.1 h.symm
    rfl
  | cons a A ih =>
    cases B with
    | nil => cases h
    | cons b B =>
      have hrest := ih (byteStep c a) (byteStep d b) (Nat.succ.inj h)
      rw [← byteStep_xor] at hrest
      exact hrest

theorem crc16Arc_zipWith_xor {A B : List Byte} (h : A.length = B.length) :
    crc16Arc (A.zipWith (· ^^^ ·) B) = crc16Arc A ^^^ crc16Arc B :=
  crcFrom_zipWith_xor Config.init Config.init h

theorem crc16Arc_append (S U : List Byte) : crc16Arc (S ++ U) = crcFrom (crc16Arc S) U :=
  crcFrom_append ..

/-- The register is 0x0000 until the first byte that is not zero (R91). -/
theorem crc16Arc_zeros_append (k : Nat) (S : List Byte) :
    crc16Arc (List.replicate k 0x00 ++ S) = crc16Arc S := by
  induction k with
  | zero => rfl
  | succ k ih => exact ih

theorem crc16Arc_zeros (k : Nat) : crc16Arc (List.replicate k 0x00) = 0x0000 := by
  rw [← List.append_nil (List.replicate k 0x00), crc16Arc_zeros_append]
  rfl

/-- A register's own low byte clears its low byte, which leaves the high byte for the second one to
clear (R93). -/
theorem crcFrom_own_bytes (c : Word) :
    crcFrom c [c.extractLsb' 0 8, c.extractLsb' 8 8] = 0x0000 := by
  have hlow : byteStep c (c.extractLsb' 0 8) = zext16 (c.extractLsb' 8 8) := by
    rw [byteStep_eq_tableEntry, BitVec.xor_self]
    exact BitVec.xor_zero
  have hhigh (b : Byte) : byteStep (zext16 b) b = 0x0000 := by
    rw [byteStep, BitVec.xor_self]
    rfl
  calc crcFrom c [c.extractLsb' 0 8, c.extractLsb' 8 8]
      = byteStep (byteStep c (c.extractLsb' 0 8)) (c.extractLsb' 8 8) := rfl
    _ = 0x0000 := by rw [hlow, hhigh]

/-! ## Flipped bits (R92) -/

theorem byteStep_zero_byte (c : Word) : byteStep c 0x00#8 = shr8 c := congrArg shr8 BitVec.xor_zero

/-- A difference of two registers goes through the bytes as eight shifts for each. -/
theorem crcFrom_xor_register (c d : Word) (S : List Byte) :
    crcFrom (c ^^^ d) S = crcFrom c S ^^^ shrN (8 * S.length) d := by
  induction S generalizing c d with
  | nil => rfl
  | cons b S ih =>
    have hbyte : byteStep (c ^^^ d) b = byteStep c b ^^^ shrN 8 d := by
      have hlin := byteStep_xor c d b 0x00#8
      rwa [BitVec.xor_zero, byteStep_zero_byte] at hlin
    calc crcFrom (c ^^^ d) (b :: S) = crcFrom (byteStep (c ^^^ d) b) S := rfl
      _ = crcFrom c (b :: S) ^^^ shrN (8 * S.length) (shrN 8 d) := by rw [hbyte, ih]; rfl
      _ = _ := by rw [← shrN_add, List.length_cons, Nat.mul_succ, Nat.add_comm 8]

theorem crc16Arc_set (S : List Byte) {i : Nat} (h : i < S.length) (x : Byte) :
    crc16Arc (S.set i x) = crcFrom (byteStep (crc16Arc (S.take i)) x) (S.drop (i + 1)) := by
  rw [List.set_eq_take_append_cons_drop, if_pos h, crc16Arc_append]
  rfl

/-- An error pattern `e` on byte `i` changes the checksum by `e` shifted through the bytes from `i` on. -/
theorem crc16Arc_set_xor (S : List Byte) {i : Nat} (h : i < S.length) (e : Byte) :
    crc16Arc (S.set i (S[i] ^^^ e)) = crc16Arc S ^^^ shrN (8 * (S.length - i)) (zext16 e) := by
  have hbyte (c : Word) : byteStep c (S[i] ^^^ e) = byteStep c S[i] ^^^ shrN 8 (zext16 e) := by
    rw [byteStep, zext16_xor, ← BitVec.xor_assoc, shr8_xor]
    rfl
  have hself : crcFrom (byteStep (crc16Arc (S.take i)) S[i]) (S.drop (i + 1)) = crc16Arc S := by
    rw [← crc16Arc_set S h, List.set_getElem_self]
  have hshifts : 8 + 8 * (S.drop (i + 1)).length = 8 * (S.length - i) := by
    rw [List.length_drop]
    omega
  rw [crc16Arc_set S h, hbyte, crcFrom_xor_register, hself, ← shrN_add, hshifts]

/-- `k` shifts bring bit `k` of a byte down to bit 0. -/
theorem shrN_bit : ∀ k < 8, shrN k (zext16 (1#8 <<< k)) = 0x0001#16 := by decide

theorem crc16Arc_flip_xor (S : List Byte) {i k : Nat} (h : i < S.length) (hk : k < 8) :
    crc16Arc (S.set i (S[i] ^^^ (1#8 <<< k))) ^^^ crc16Arc S =
      shrN (8 * (S.length - i) - k) 0x0001#16 := by
  rw [crc16Arc_set_xor S h, BitVec.xor_comm, ← BitVec.xor_assoc, BitVec.xor_self, BitVec.zero_xor,
    ← Nat.add_sub_of_le (show k ≤ 8 * (S.length - i) by omega), shrN_add, shrN_bit k hk,
    Nat.add_sub_cancel_left]

/-- Linearity over bit streams that are given by position. -/
theorem serialFrom_map_xor (c e : Word) (f g : Nat → Bool) (ns : List Nat) :
    serialFrom (c ^^^ e) (ns.map fun n => Bool.xor (f n) (g n)) =
      serialFrom c (ns.map f) ^^^ serialFrom e (ns.map g) := by
  induction ns generalizing c e with
  | nil => rfl
  | cons n ns ih =>
    have hrest := ih (serialStep c (f n)) (serialStep e (g n))
    rw [← serialStep_xor] at hrest
    exact hrest

/-- From 0x0000 a stream of `N` bits with a single 1 at position `p` leaves 0x0001 shifted once for that
bit and once for each bit after it. -/
theorem serialFrom_single (p N : Nat) :
    serialFrom 0x0000#16 ((List.range N).map fun n => decide (n = p)) =
      if p < N then shrN (N - p) 0x0001#16 else 0x0000#16 := by
  induction N with
  | zero => rfl
  | succ N ih =>
    rw [List.range_succ, List.map_append, serialFrom_append, ih]
    show serialStep _ (decide (N = p)) = _
    rcases lt_trichotomy p N with h | rfl | h
    · rw [if_pos h, if_pos (by omega), decide_eq_false (by omega), serialStep_false, ← shrN_succ,
        Nat.succ_sub h.le]
    · rw [if_neg (lt_irrefl p), if_pos p.lt_succ_self, decide_eq_true rfl, Nat.add_sub_cancel_left]
      rfl
    · rw [if_neg (by omega), if_neg (by omega), decide_eq_false (by omega)]
      rfl

/-- Two bits set at different positions are two single bits xored. -/
theorem serialFrom_pair {p q N : Nat} (hpq : p < q) (hq : q < N) :
    serialFrom 0x0000#16 ((List.range N).map fun n => decide (n = p ∨ n = q)) =
      shrN (N - p) 0x0001#16 ^^^ shrN (N - q) 0x0001#16 := by
  have hbits (n : Nat) : decide (n = p ∨ n = q) = Bool.xor (decide (n = p)) (decide (n = q)) := by
    by_cases hp : n = p
    · simp [hp, hpq.ne]
    · simp [hp]
  have hlin := serialFrom_map_xor 0x0000#16 0x0000#16 (fun n => decide (n = p)) (fun n => decide (n = q))
    (List.range N)
  rw [serialFrom_single, serialFrom_single, if_pos (hpq.trans hq), if_pos hq, BitVec.xor_self] at hlin
  simpa only [hbits] using hlin

theorem crc16Arc_xor_eq_iff {S E : List Byte} (h : S.length = E.length) :
    crc16Arc (S.zipWith (· ^^^ ·) E) = crc16Arc S ↔ crc16Arc E = 0x0000#16 := by
  rw [crc16Arc_zipWith_xor h]
  exact xor_left_eq_self_iff

end Sys2Proof.Machine

open Sys2Proof Sys2Proof.Machine

/-- Settles O40: the words of `BYTE` run one after the other, and those of a sequence fold it. -/
theorem byteIsNineWords : Obligations.ByteIsNineWords := by
  refine ⟨map_decodeDp_byteWords, runDatapath_byteWords, fun S s => ?_, by decide,
    byteStep_zero_register, by decide, by decide, by decide⟩
  exact (runDatapath_cons (w := 0x100#10) _ (exec_clr s)).trans (runDatapath_bytesWords S _)

/-- Settles O41: the high byte is shifted down alone, and the low byte becomes its table entry. -/
theorem byteSplit : Obligations.ByteSplit := fun c b => by
  refine ⟨?_, byteStep_eq_tableEntry c b⟩
  rw [ushiftRight_eight, extract_low_xor_zext16]
  exact byteStep_eq_tableEntry c b

/-- Settles O42: the printed entries by evaluation, their laws from those of `SHR`. -/
theorem tableContents : Obligations.TableContents :=
  ⟨length_table, tableAt_eq_tableEntry, fun i => ⟨rfl, (byteStep_zero_register i).symm⟩,
    tableEntry_injective, tableEntry_xor, by decide, by decide, by decide⟩

/-- Settles O43: `TBL` is `BYTE` by the split, so one TBL step a byte folds the buffer. -/
theorem tableFormAgrees : Obligations.TableFormAgrees := by
  refine ⟨tblStep_eq_byteStep, fun s S hk hbuf _ hund => ?_, by decide⟩
  rw [← Memory.buffer_length hbuf] at hund ⊢
  obtain ⟨u, hs, hcrc, hu⟩ := tableFormStep_accept hk hbuf hund
  obtain ⟨t, ht, htcrc, hflags⟩ := hu.finishes
  rw [hcrc] at htcrc
  exact ⟨t, (tableFormStepN_succ_of_step _ hs).trans ht, htcrc, hflags⟩

/-- Settles O45: each shift takes in one bit of the byte, and after eight none is left. -/
theorem byteIsEightSerialSteps : Obligations.ByteIsEightSerialSteps :=
  ⟨byteStep_eq_serialFrom, fun c b _ => shrN_xor_zext16 c b,
    fun S => ⟨crcFrom_eq_serialFrom _ S, length_bitStream S⟩⟩

/-- Settles O46: every `BYTE` is linear, and the fold starts from 0x0000 on both sides. -/
theorem checksumLinear : Obligations.ChecksumLinear :=
  ⟨fun _ _ => crc16Arc_zipWith_xor, crc16Arc_zeros, byteStep_xor, by decide +kernel,
    by decide +kernel, by decide +kernel⟩

/-- Settles O47: a zero byte leaves the register 0x0000, and the checksum of "123456789" is not zero. -/
theorem leadingZerosInvisible : Obligations.LeadingZerosInvisible :=
  ⟨crc16Arc_zeros_append, crc16Arc_zeros, rfl, crc16Arc_checkSequence, by decide +kernel⟩

/-- Settles O48: the difference is 0x0001 shifted, and no shift makes it zero. -/
theorem singleBitErrorsDetected : Obligations.SingleBitErrorsDetected := by
  intro S i k h hk
  have hdiff := crc16Arc_flip_xor S h hk
  refine ⟨fun heq => ?_, hdiff⟩
  rw [heq, BitVec.xor_self] at hdiff
  exact shrN_ne_zero _ (by decide) hdiff.symm

/-- Settles O49: the two bits' contributions cancel exactly when they are whole turns of the cycle of
0x0001 apart. -/
theorem doubleBitErrorsEscape : Obligations.DoubleBitErrorsEscape := by
  intro S E p q hpq hq hlen hbits
  have hE : crc16Arc E = shrN (8 * S.length - p) 0x0001#16 ^^^ shrN (8 * S.length - q) 0x0001#16 := by
    rw [← serialFrom_pair hpq hq, ← hbits]
    exact crcFrom_eq_serialFrom _ E
  have hdist : 8 * S.length - p = q - p + (8 * S.length - q) := by omega
  rw [crc16Arc_xor_eq_iff hlen.symm, hE, hdist, ← shrN_add_one_eq_iff]
  exact BitVec.xor_eq_zero_iff

/-- Settles O50: the checksum's own two bytes clear the register that holds it. -/
theorem residue : Obligations.Residue :=
  ⟨fun S => (crc16Arc_append S _).trans (crcFrom_own_bytes _), by decide +kernel, by decide +kernel⟩

/-- Settles O44: `STEP d` is `SHR` of the register with `d` in bit 0. -/
theorem serialStep : Obligations.SerialStep :=
  ⟨serialStep_false, serialStep_eq_shr1, serialStep_eq_xor, by decide, by decide⟩

/-- Settles O51: the fold goes on from the checksum of the first part, and ACCEPT clears `CRC`. -/
theorem checksumComposes : Obligations.ChecksumComposes := by
  refine ⟨crc16Arc_append, fun s t hk h => ?_⟩
  rw [step_of_accept hk] at h
  cases h
  rfl

end

section
/-! PROOFS of the family 60_exceptions.md: the one way a step can fail (R97, R110), a `length` past the valid bytes (R97, U2), and instances over one memory (R108). -/

namespace Sys2Proof.Machine

/-! ## The stuck block (R97, R110) -/

theorem step_of_stuck {s : State} (h : Stuck s) : step s = .fault (.stuckAtUndefinedAddress s.ptr) :=
  step_of_fetch_undefined h.1 h.2

theorem step_exists_of_not_stuck {s : State} (h : ¬ Stuck s) : ∃ t, step s = .next t := by
  by_cases hk : s.kind = .fetch
  · obtain ⟨b, hb⟩ := Option.ne_none_iff_exists'.1 fun hb => h ⟨hk, hb⟩
    exact ⟨_, step_of_fetch hk hb⟩
  · exact step_exists_of_not_fetch hk

theorem step_ne_refused (s : State) (r : Refusal) : step s ≠ .refused r := by
  by_cases hs : Stuck s
  · rw [step_of_stuck hs]
    nofun
  · obtain ⟨t, ht⟩ := step_exists_of_not_stuck hs
    rw [ht]
    nofun

theorem step_eq_fault_iff (s : State) (r : Fault) :
    step s = .fault r ↔ Stuck s ∧ r = .stuckAtUndefinedAddress s.ptr := by
  by_cases hs : Stuck s
  · rw [step_of_stuck hs, Host.Outcome.fault.injEq]
    exact ⟨fun h => ⟨hs, h.symm⟩, fun h => h.2.symm⟩
  · obtain ⟨t, ht⟩ := step_exists_of_not_stuck hs
    rw [ht]
    exact ⟨nofun, fun h => absurd h.1 hs⟩

/-- A reset is a step from every state, a stuck one too, and leaves `BUSY = 0` (R111). -/
theorem step_of_rst {s : State} (h : s.input.rst = true) : ∃ t, step s = .next t ∧ t.busy = false :=
  ⟨_, step_of_reset ((kind_eq_reset_iff s).2 h), rfl⟩

/-! ## A buffer defined for fewer bytes than `length`

The window of an operation as in `InWindow`, but only `n` of the bytes still to read are defined, fewer
than `CNT`. The measure is `9 * n + BIT`: where it is 0 the block is stuck. -/

/-- The block is inside an operation's window with `n` valid bytes at `d` still to read and an undefined
one after them, and nothing disturbs those addresses up to the FETCH of the undefined one. -/
structure ValidBytesLeft (s : State) (d n : Nat) : Prop where
  busy : s.busy = true
  done : s.done = false
  ptr : s.ptr = d % 2 ^ s.aw
  cnt : n < s.cnt.toNat
  defined : ∀ k < n, (s.mem.read ((d + k) % 2 ^ s.aw)).isSome
  undefined : s.mem.read ((d + n) % 2 ^ s.aw) = none
  undisturbed : Undisturbed (9 * n + s.bit.val + 1) d (n + 1) s

/-- A step leaves each address of an undisturbed buffer as it was, an undefined one too. -/
theorem read_of_step {s t : State} {m d L k : Nat} (hs : step s = .next t)
    (h : Undisturbed (m + 1) d L s) (hk : k < L) :
    t.mem.read ((d + k) % 2 ^ t.aw) = s.mem.read ((d + k) % 2 ^ s.aw) := by
  rw [step_mem hs, step_aw hs]
  exact Memory.read_writeAll_other _ _ fun c hc => writes_elsewhere_of_undisturbed h c hc k hk

theorem ValidBytesLeft.rst {s : State} {d n : Nat} (h : ValidBytesLeft s d n) : s.input.rst = false :=
  State.input_of_forall_take (P := fun i => i.rst = false) rfl fun i hi => (h.undisturbed i hi).1

theorem ValidBytesLeft.cnt_ne_zero {s : State} {d n : Nat} (h : ValidBytesLeft s d n) : s.cnt ≠ 0 := by
  intro h0
  have hcnt := h.cnt
  simp [h0] at hcnt

theorem ValidBytesLeft.kind_eq_fetch {s : State} {d n : Nat} (h : ValidBytesLeft s d n)
    (hbit : s.bit.val = 0) : s.kind = .fetch :=
  (kind_eq_fetch_iff s).2 ⟨h.rst, h.busy, Fin.val_eq_zero_iff.1 hbit, h.cnt_ne_zero⟩

/-- The ACCEPT step opens the window (R69). -/
theorem step_accept_validBytesLeft {s : State} {n : Nat} (hk : s.kind = .accept)
    (hlen : n < s.input.length.toNat)
    (hdef : ∀ k < n, (s.mem.read ((s.input.data + k) % 2 ^ s.aw)).isSome)
    (hundef : s.mem.read ((s.input.data + n) % 2 ^ s.aw) = none)
    (hund : Undisturbed (9 * n + 2) s.input.data (n + 1) s) :
    ∃ t, step s = .next t ∧ t.bit.val = 0 ∧ ValidBytesLeft t s.input.data n := by
  have hs := step_of_accept hk
  exact ⟨_, hs, rfl, rfl, rfl, rfl, hlen, fun k hk => step_read_isSome hs (hdef k hk),
    (read_of_step hs hund n.lt_succ_self).trans hundef, undisturbed_of_step hs hund⟩

/-- A shift owed is taken, the valid bytes left staying as they are (R71). -/
theorem ValidBytesLeft.shift {s : State} {d n : Nat} (h : ValidBytesLeft s d n) (hbit : s.bit.val ≠ 0) :
    ∃ t, step s = .next t ∧ t.bit.val + 1 = s.bit.val ∧ ValidBytesLeft t d n := by
  have hne : s.bit ≠ 0 := Fin.val_ne_zero_iff.1 hbit
  have hs := step_of_shift ((kind_eq_shift_iff s).2 ⟨h.rst, h.busy, hne⟩)
  have hlow := decBit_val hne
  refine ⟨_, hs, hlow, h.busy, h.done, h.ptr, h.cnt, fun k hk => step_read_isSome hs (h.defined k hk),
    (read_of_step hs h.undisturbed n.lt_succ_self).trans h.undefined, undisturbed_of_step hs ?_⟩
  rw [Nat.add_assoc (9 * n), hlow]
  exact h.undisturbed

/-- With no shift owed the next valid byte is read, eight shifts then being owed (R72). -/
theorem ValidBytesLeft.fetch {s : State} {d n : Nat} (h : ValidBytesLeft s d (n + 1))
    (hbit : s.bit.val = 0) :
    ∃ t, step s = .next t ∧ t.bit.val = 8 ∧ ValidBytesLeft t (d + 1) n := by
  have hfirst : (s.mem.read s.ptr).isSome := by simpa [h.ptr] using h.defined 0 n.succ_pos
  obtain ⟨b, hb⟩ := Option.isSome_iff_exists.1 (fetchByte_isSome hfirst)
  have hs := step_of_fetch (h.kind_eq_fetch hbit) hb
  have hund := h.undisturbed
  rw [hbit] at hund
  have hshift : ∀ k, d + 1 + k = d + (k + 1) := fun k => by omega
  refine ⟨_, hs, rfl, h.busy, h.done, ?_, ?_, fun k hk => ?_, ?_,
    undisturbed_tail (undisturbed_of_step hs hund)⟩
  · simp [h.ptr, nextAddress]
  · have hdec := decCnt_toNat h.cnt_ne_zero
    have hold := h.cnt
    show n < (decCnt s.cnt).toNat
    omega
  · rw [hshift]
    exact step_read_isSome hs (h.defined (k + 1) (Nat.succ_lt_succ hk))
  · rw [hshift]
    exact (read_of_step hs hund (n + 1).lt_succ_self).trans h.undefined

/-- As many steps as the measure says exist, and bring the block to the undefined byte. -/
theorem ValidBytesLeft.stepN {m : Nat} {s : State} {d n : Nat} (h : ValidBytesLeft s d n)
    (hm : 9 * n + s.bit.val = m) :
    ∃ t, Machine.stepN m s = .next t ∧ t.bit.val = 0 ∧ ValidBytesLeft t (d + n) 0 := by
  induction m generalizing s d n with
  | zero =>
    obtain rfl : n = 0 := by omega
    exact ⟨s, rfl, by omega, h⟩
  | succ m ih =>
    by_cases hbit : s.bit.val = 0
    · obtain ⟨n, rfl⟩ : ∃ n', n = n' + 1 := Nat.exists_eq_succ_of_ne_zero (by omega)
      obtain ⟨u, hu, hubit, hw⟩ := h.fetch hbit
      rw [stepN_succ_of_step m hu, Nat.add_comm n, ← Nat.add_assoc]
      exact ih hw (by omega)
    · obtain ⟨u, hu, hubit, hw⟩ := h.shift hbit
      rw [stepN_succ_of_step m hu]
      exact ih hw (by omega)

/-- At the undefined byte, with no shift owed, the block is stuck (R31, R97). -/
theorem ValidBytesLeft.stuck {s : State} {d : Nat} (h : ValidBytesLeft s d 0) (hbit : s.bit.val = 0) :
    Stuck s := by
  refine ⟨h.kind_eq_fetch hbit, ?_⟩
  rw [fetchByte_of_no_write, h.ptr]
  · exact h.undefined
  · intro c hc
    rw [h.ptr]
    exact writes_elsewhere_of_undisturbed h.undisturbed c hc 0 Nat.one_pos

/-! ## Instances over one memory (R108) -/

/-- A block over the memory `m` whose host writes nothing. -/
structure QuietOver (m : Memory) (s : State) : Prop where
  mem : s.mem = m
  noWrites : ∀ i ∈ s.inputs, i.writes = []

/-- Of an edge of `clk` the memory and the inputs see the arrival of the inputs alone, whether the block
has a step or stays. -/
theorem stepOrStay_mem_inputs (s : State) :
    (stepOrStay s).mem = s.arrive.mem ∧ (stepOrStay s).inputs = s.arrive.inputs := by
  by_cases hs : Stuck s
  · rw [stepOrStay_of_fault (step_of_stuck hs)]
    exact ⟨rfl, rfl⟩
  · obtain ⟨t, ht⟩ := step_exists_of_not_stuck hs
    rw [stepOrStay_of_next ht]
    exact ⟨step_mem ht, step_inputs ht⟩

theorem QuietOver.input_writes {m : Memory} {s : State} (h : QuietOver m s) : s.input.writes = [] :=
  State.input_of_forall_take (P := fun i => i.writes = []) (n := s.inputs.length) rfl
    fun i hi => h.noWrites i (List.mem_of_mem_take hi)

theorem QuietOver.stepOrStay {m : Memory} {s : State} (h : QuietOver m s) :
    QuietOver m (stepOrStay s) := by
  obtain ⟨hmem, hinputs⟩ := stepOrStay_mem_inputs s
  refine ⟨?_, fun i hi => h.noWrites i ?_⟩
  · rw [hmem, State.arrive_mem, h.input_writes, Memory.writeAll, h.mem]
  · rw [hinputs, State.arrive_inputs] at hi
    exact List.mem_of_mem_tail hi

theorem QuietOver.modify {m : Memory} {sys : List State} (h : ∀ s ∈ sys, QuietOver m s) (k : Nat) :
    ∀ s ∈ sys.modify k Machine.stepOrStay, QuietOver m s := by
  intro s hs
  obtain ⟨j, hj⟩ := List.mem_iff_getElem?.1 hs
  rw [List.getElem?_modify] at hj
  obtain ⟨u, hu, rfl⟩ := Option.map_eq_some_iff.1 hj
  have hquiet := h u (List.mem_of_getElem? hu)
  split
  · exact hquiet.stepOrStay
  · exact hquiet

/-- Where no host writes, the common memory stands still and an edge for one block of the list is an edge
for it alone. -/
theorem stepInstance_of_quiet {m : Memory} {sys : List State} (h : ∀ s ∈ sys, QuietOver m s) (k : Nat) :
    stepInstance k sys = sys.modify k stepOrStay := by
  unfold stepInstance
  cases hk : sys[k]? with
  | none => rw [List.modify_eq_self (List.getElem?_eq_none_iff.1 hk)]
  | some s =>
    have hmem : (stepOrStay s).mem = m := (h s (List.mem_of_getElem? hk)).stepOrStay.mem
    have hset : sys.set k (stepOrStay s) = sys.modify k stepOrStay := by
      rw [List.modify_eq_set_getElem?, hk]
      rfl
    simp only [hset, hmem]
    refine (List.map_congr_left fun u hu => ?_).trans (List.map_id _)
    rw [← (QuietOver.modify h k u hu).mem]
    rfl

/-- In any interleaving each block takes the edges it takes alone, and the memory stays. -/
theorem runSchedule_of_quiet {m : Memory} {ks : List Nat} {sys : List State}
    (h : ∀ s ∈ sys, QuietOver m s) :
    (∀ s ∈ runSchedule ks sys, QuietOver m s) ∧
    ∀ k s, sys[k]? = some s → (runSchedule ks sys)[k]? = some (runOrStay (ks.count k) s) := by
  induction ks generalizing sys with
  | nil => exact ⟨h, fun k s hk => hk⟩
  | cons j ks ih =>
    rw [runSchedule, stepInstance_of_quiet h]
    obtain ⟨hquiet, hrun⟩ := ih (QuietOver.modify h j)
    refine ⟨hquiet, fun k s hk => ?_⟩
    by_cases hj : j = k
    · subst hj
      rw [List.count_cons_self, runOrStay]
      exact hrun j _ (by simp [hk])
    · rw [List.count_cons_of_ne hj]
      exact hrun k s (by simp [hk, hj])

end Sys2Proof.Machine

open Sys2Proof Sys2Proof.Machine

/-- Settles O24: a step that is not stuck exists, and a reset step is never stuck. -/
theorem stuckExactlyWhereUndefined : Obligations.StuckExactlyWhereUndefined :=
  ⟨step_ne_refused, step_eq_fault_iff, fun s i is hrst => step_of_rst (s := s.withInputs (i :: is)) hrst⟩

/-- Settles O25: the ACCEPT step opens the window over the valid bytes, nine steps take each of them,
and then the block stands at the undefined one. -/
theorem stuckPastTheValidBytes : Obligations.StuckPastTheValidBytes := by
  intro s S hk hlen hbuf hundef hund
  obtain ⟨u, hu, hubit, hw⟩ :=
    step_accept_validBytesLeft hk hlen (Memory.read_isSome_of_buffer hbuf) hundef hund
  obtain ⟨t, ht, htbit, hwt⟩ := hw.stepN (m := 9 * S.length) (by omega)
  have hstuck := hwt.stuck htbit
  refine ⟨t, (stepN_succ_of_step _ hu).trans ht, hstuck, hwt.busy, hwt.done, ?_⟩
  rw [step_of_stuck hstuck, hwt.ptr, stepN_aw ht, step_aw hu]

/-- Settles O59: an edge of a block with a quiet host changes the list at that block's place alone; a
stuck block has only its inputs taken. -/
theorem instancesDoNotInteract : Obligations.InstancesDoNotInteract := by
  refine ⟨fun ks sys m hmem hwrites => ?_, fun s hstuck => ?_⟩
  · obtain ⟨hquiet, hrun⟩ := runSchedule_of_quiet (ks := ks) fun s hs => ⟨hmem s hs, hwrites s hs⟩
    exact ⟨fun s hs => (hquiet s hs).mem, hrun⟩
  · have hstay : stepOrStay s = s.arrive := stepOrStay_of_fault (step_of_stuck hstuck)
    refine ⟨hstay, fun hrst => ?_⟩
    obtain ⟨t, ht, hbusy⟩ := step_of_rst hrst
    rw [runOrStay, hstay, runOrStay, stepOrStay_of_next ht]
    exact hbusy

end

section
/-! PROOFS of the family 70_reset_and_hazards.md: the RESET step and what follows it (R111, R113, R114), and the end of a run with its final state (R126). -/

namespace Sys2Proof.Machine

/-! ## RESET steps (R111) -/

/-- The inputs of the coming step stand first in the list, where it is not empty. -/
theorem State.input_mem_take {s : State} {n : Nat} (h : n < s.inputs.length) :
    s.input ∈ s.inputs.take (n + 1) := by
  unfold State.input
  cases hs : s.inputs with
  | nil => simp [hs] at h
  | cons i is => simp

theorem step_of_rst_eq {s : State} (h : s.input.rst = true) : step s = .next s.arrive.resetBlock :=
  step_of_reset ((kind_eq_reset_iff s).2 h)

/-- While `rst` stays 1 each step is a RESET step, so the last one leaves what a RESET step writes. -/
theorem stepN_of_rst {n : Nat} {s : State} (hlen : n < s.inputs.length)
    (hrst : ∀ i ∈ s.inputs.take (n + 1), i.rst = true) :
    ∃ u : State, stepN (n + 1) s = .next u.resetBlock := by
  induction n generalizing s with
  | zero => exact ⟨_, stepN_succ_of_step 0 (step_of_rst_eq (hrst _ (State.input_mem_take hlen)))⟩
  | succ n ih =>
    have hs := step_of_rst_eq (hrst _ (State.input_mem_take hlen))
    have hlen' : n < s.arrive.resetBlock.inputs.length := by simp; omega
    rw [stepN_succ_of_step _ hs]
    exact ih hlen' (forall_take_of_step hs hrst)

/-- With `rst = 0` and `BUSY = 0`, `start` alone says whether the step is ACCEPT or IDLE (R68). -/
theorem kind_of_not_busy {s : State} (hbusy : s.busy = false) (hrst : s.input.rst = false) :
    s.kind = if s.input.start then .accept else .idle := by
  cases hstart : s.input.start with
  | false => exact (kind_eq_idle_iff s).2 ⟨hrst, hbusy, hstart⟩
  | true => exact (kind_eq_accept_iff s).2 ⟨hrst, hbusy, hstart⟩

/-- An idle block to which nothing is said takes an IDLE step; its list may have ended (log entry 6). -/
theorem kind_eq_idle_of_onlyIdle {n : Nat} {s : State} (hbusy : s.busy = false)
    (hidle : OnlyIdle (n + 1) s) : s.kind = .idle := by
  obtain ⟨hrst, hstart⟩ : s.input.rst = false ∧ s.input.start = false :=
    State.input_of_forall_take (P := fun i => i.rst = false ∧ i.start = false) ⟨rfl, rfl⟩ hidle
  exact (kind_eq_idle_iff s).2 ⟨hrst, hbusy, hstart⟩

/-- An idle block to which nothing is said reads nothing, in any number of steps. -/
theorem readAddresses_trace_of_onlyIdle {n : Nat} {s : State} (hbusy : s.busy = false)
    (hidle : OnlyIdle n s) : readAddresses (trace n s) = [] := by
  induction n generalizing s with
  | zero => rfl
  | succ n ih =>
    have hk := kind_eq_idle_of_onlyIdle hbusy hidle
    have hs := step_of_idle hk
    rw [trace_succ_of_step n hs, readAddresses_cons_of_not_fetch (by simp [hk])]
    exact ih (s := s.arrive) hbusy (forall_take_of_step hs hidle)

/-! ## When a run is over (R126)

`BUSY` is what `everyStartFinished` carries along as `pending`: set by ACCEPT, cleared by FINISH, and a
RESET step that finds it set loses an operation. -/

/-- No RESET step among the next `n` steps finds `BUSY = 1`. -/
def NoOperationLost (n : Nat) (s : State) : Prop :=
  ∀ m < n, ∀ u, stepN m s = .next u → u.kind = .reset → u.busy = false

theorem noOperationLost_zero (s : State) : NoOperationLost 0 s := nofun

/-- The steps after the first, counted from the state before it. -/
theorem noOperationLost_of_step_iff {s t : State} (n : Nat) (h : step s = .next t) :
    NoOperationLost n t ↔
      ∀ m u, 0 < m → m < n + 1 → stepN m s = .next u → u.kind = .reset → u.busy = false := by
  constructor
  · intro ht m u hpos hm hu
    obtain ⟨m, rfl⟩ : ∃ k, m = k + 1 := Nat.exists_eq_succ_of_ne_zero hpos.ne'
    exact ht m (Nat.lt_of_succ_lt_succ hm) u ((stepN_succ_of_step m h).symm.trans hu)
  · intro hs m hm u hu
    exact hs (m + 1) u m.succ_pos (Nat.succ_lt_succ hm) ((stepN_succ_of_step m h).trans hu)

/-- The first of the steps by itself, the others from the state it leaves. -/
theorem noOperationLost_succ_iff {s t : State} (n : Nat) (h : step s = .next t) :
    NoOperationLost (n + 1) s ↔ (s.kind = .reset → s.busy = false) ∧ NoOperationLost n t := by
  rw [noOperationLost_of_step_iff n h]
  constructor
  · exact fun hs => ⟨hs 0 n.succ_pos s rfl, fun m u _ hm => hs m hm u⟩
  · rintro ⟨hfirst, hlater⟩ m hm u hu
    rcases m.eq_zero_or_pos with rfl | hpos
    · cases hu
      exact hfirst
    · exact hlater m u hpos hm hu

/-- One step hands `BUSY` on as `everyStartFinished` does. -/
theorem everyStartFinished_kind_cons {s t : State} (h : step s = .next t) (ks : List StepKind) :
    everyStartFinished s.busy (s.kind :: ks) = true ↔
      (s.kind = .reset → s.busy = false) ∧ everyStartFinished t.busy ks = true := by
  rcases step_cases h with ⟨hk, rfl⟩ | ⟨hk, rfl⟩ | ⟨hk, rfl⟩ | ⟨hk, rfl⟩ | ⟨hk, b, -, rfl⟩ | ⟨hk, rfl⟩ <;>
    simp [hk, everyStartFinished]

/-- From any state, an operation under way counted as accepted: all have finished exactly when none is
under way at the end and no reset has ended one. -/
theorem everyStartFinished_stepKinds_iff {n : Nat} {s t : State} (h : stepN n s = .next t) :
    everyStartFinished s.busy (stepKinds n s) = true ↔ t.busy = false ∧ NoOperationLost n s := by
  induction n generalizing s with
  | zero =>
    cases h
    show (!t.busy) = true ↔ _
    simp [noOperationLost_zero]
  | succ n ih =>
    obtain ⟨u, hu, ht⟩ := andThen_eq_next h
    rw [stepKinds_succ_of_step n hu, everyStartFinished_kind_cons hu, ih ht,
      noOperationLost_succ_iff n hu]
    tauto

/-! ## The final state (R126) -/

/-- `n + 1` steps that exist are `n` and a last one, whose kind comes last. -/
theorem stepN_succ_last {n : Nat} {s t : State} (h : stepN (n + 1) s = .next t) :
    ∃ u, stepN n s = .next u ∧ step u = .next t ∧ stepKinds (n + 1) s = stepKinds n s ++ [u.kind] := by
  rw [stepN_add] at h
  obtain ⟨u, hu, hone⟩ := andThen_eq_next h
  obtain ⟨v, hv, hvt⟩ := andThen_eq_next hone
  cases hvt
  refine ⟨u, hu, hv, ?_⟩
  rw [stepKinds, trace_add_of_stepN 1 hu, List.map_append, trace_succ_of_step 0 hv]
  rfl

theorem sinceReset_append_reset (ks : List StepKind) : sinceReset (ks ++ [.reset]) = [] := by
  simp [sinceReset]

theorem sinceReset_append_of_ne_reset (ks : List StepKind) {k : StepKind} (h : k ≠ .reset) :
    sinceReset (ks ++ [k]) = sinceReset ks ++ [k] := by
  simp [sinceReset, h]

theorem accept_mem_sinceReset_append_iff (ks : List StepKind) (k : StepKind) :
    .accept ∈ sinceReset (ks ++ [k]) ↔ k ≠ .reset ∧ (k = .accept ∨ .accept ∈ sinceReset ks) := by
  by_cases hk : k = .reset
  · simp [hk, sinceReset_append_reset]
  · rw [sinceReset_append_of_ne_reset ks hk, List.mem_append, List.mem_singleton, or_comm, eq_comm]
    exact (and_iff_right hk).symm

/-- A step leaves an operation under way or delivered when it accepts one, or when it found one so and
is no RESET step. -/
theorem step_busy_or_done_iff {s t : State} (h : step s = .next t) :
    (t.busy = true ∨ t.done = true) ↔
      s.kind ≠ .reset ∧ (s.kind = .accept ∨ s.busy = true ∨ s.done = true) := by
  have hfinish : s.kind = .finish → s.busy = true := fun hk => ((kind_eq_finish_iff s).1 hk).2.1
  rcases step_cases h with ⟨hk, rfl⟩ | ⟨hk, rfl⟩ | ⟨hk, rfl⟩ | ⟨hk, rfl⟩ | ⟨hk, b, -, rfl⟩ | ⟨hk, rfl⟩ <;>
    simp [hk, hfinish]

/-- In a run that begins with a RESET step, an operation is under way or delivered exactly when one was
accepted since the last reset. -/
theorem accept_mem_sinceReset_stepKinds_iff {n : Nat} {s t : State} (hk : s.kind = .reset)
    (h : stepN (n + 1) s = .next t) :
    .accept ∈ sinceReset (stepKinds (n + 1) s) ↔ t.busy = true ∨ t.done = true := by
  induction n generalizing t with
  | zero =>
    obtain ⟨u, hu, ht, hkinds⟩ := stepN_succ_last h
    cases hu
    rw [hkinds, accept_mem_sinceReset_append_iff, step_busy_or_done_iff ht]
    simp [hk]
  | succ n ih =>
    obtain ⟨u, hu, ht, hkinds⟩ := stepN_succ_last h
    rw [hkinds, accept_mem_sinceReset_append_iff, step_busy_or_done_iff ht, ih hu]

end Sys2Proof.Machine

open Sys2Proof Sys2Proof.Machine

/-- Settles O20: the RESET step writes the free value as an address, and of several such steps the last
leaves the reset values. -/
theorem resetStep : Obligations.ResetStep := by
  refine ⟨fun s hrst => ?_, fun n s hn hlen hrst => ?_⟩
  · have hk := (kind_eq_reset_iff s).2 hrst
    exact ⟨hk, memRe_eq_false (by simp [hk]), _, portAddress_lt s.aw (Config.resetPtr s.draws),
      step_of_reset hk⟩
  · obtain ⟨n, rfl⟩ : ∃ m, n = m + 1 := Nat.exists_eq_succ_of_ne_zero hn.ne'
    obtain ⟨u, hu⟩ := stepN_of_rst hlen hrst
    exact ⟨_, hu, rfl, rfl, rfl, rfl, rfl⟩

/-- Settles O22: a RESET step leaves `BUSY = 0`, so `start` alone says what the next step is. -/
theorem idleAfterReset : Obligations.IdleAfterReset := by
  intro s t hrst h hnext
  rw [step_of_rst_eq hrst] at h
  cases h
  exact ⟨rfl, kind_of_not_busy rfl hnext⟩

/-- Settles O23: the block stands idle after the RESET step, and who may clear `BUSY` is in
WritersOfEachRegister. -/
theorem resetEndsTheOperation : Obligations.ResetEndsTheOperation := by
  refine ⟨fun s _ hrst => ?_, fun s t hbusy h hidle => ?_⟩
  · refine ⟨_, step_of_rst_eq hrst, rfl, rfl, rfl, rfl, fun n hquiet => ?_⟩
    obtain ⟨u, hu, -, hubusy, hudone, -⟩ := stepN_of_onlyIdle rfl hquiet
    exact ⟨readAddresses_trace_of_onlyIdle rfl hquiet, u, hu, hubusy, hudone⟩
  · obtain ⟨-, -, hends, -⟩ := writersOfEachRegister s t h
    exact hends hidle hbusy

/-- Settles O60: past the first RESET step `BUSY` is 0, and from there it is what `everyStartFinished`
carries along; an operation accepted since the last reset is under way or delivered. -/
theorem finalStateOfARun : Obligations.FinalStateOfARun := by
  intro n s t hn hrst h
  obtain ⟨n, rfl⟩ : ∃ m, n = m + 1 := Nat.exists_eq_succ_of_ne_zero hn.ne'
  have hk : s.kind = .reset := (kind_eq_reset_iff s).2 hrst
  refine ⟨?_, fun ⟨_, hin, hbusy⟩ => ⟨kind_eq_idle_of_onlyIdle (n := 0) hbusy (by simp [OnlyIdle, hin]), ?_⟩⟩
  · obtain ⟨u, hu, ht⟩ := andThen_eq_next h
    have hidle : u.busy = false := by
      rw [step_of_reset hk] at hu
      cases hu
      rfl
    have hrun := everyStartFinished_stepKinds_iff ht
    rw [hidle, noOperationLost_of_step_iff n hu] at hrun
    rw [stepKinds_succ_of_step n hu, hk]
    exact hrun
  · rw [accept_mem_sinceReset_stepKinds_iff hk h, hbusy]
    simp

end
